-- ==== Sys2Proof/Word.lean ====
section
/-! DEFINITION. The two sizes of data TWC computes with (R8, R12): a byte and a 32-bit word. -/

namespace Sys2Proof

/-- A byte, a number 0 to 255 (R12). Addition and subtraction wrap: these are `+8` and `-8` of R13. -/
abbrev Byte := BitVec 8

/-- A word, a number 0 to 2^32 - 1, bit 0 least significant (R12). Addition and subtraction wrap: `+32`, `-32` of R13. -/
abbrev Word := BitVec 32

end Sys2Proof
end

