-- ==== Sys2Proof/Config.lean ====
section
/-! DEFINITION. The implementation parameters of R9: what is fixed for the life of the hardware (R49). The open ones
are uninterpreted constants: no statement can depend on a value of theirs. -/

namespace Sys2Proof.Config

/-- P2: the number of archive engine contexts (R9, R20; log 7). -/
abbrev nctx : Nat := 2

/-- P3: the capacity in bytes of each of the two queues (R9, R41; log 7). -/
abbrev bufcap : Nat := 131072

/-- The names of the six tables of TROM (R46, R60). -/
inductive Table where
  | t0 | t1 | t2 | t3 | multable | divtable
  deriving DecidableEq, Repr

/-- The contents of TROM: a whole word for each table name and byte index (R46, R61). It is configuration, not state. -/
abbrev Rom := Table → Byte → Word

/-- The open parameters a command can read (R9). The bounds of NKFIELDS (offset below 65536, size below 16, R181) are in
its type. -/
structure Params where
  /-- P1, R46: the six tables. -/
  rom : Rom
  /-- P4, R184: the fixed 12-byte header of the network key. -/
  nkhdr : Vector Byte 12
  /-- P5, R181: a total function of the seed alone, giving (offset, size). -/
  nkfields : Word → Fin 65536 × Fin 16
  deriving Inhabited

/-- The parameters of the hardware. OPEN: no value is known, and none can be proved (R9; log 6). -/
opaque hw : Params

/-- P7: BASE divided by 4. OPEN, a platform parameter (R68; log 8). -/
opaque baseWord : Nat

/-- P7: the bus address of control register 0, a multiple of 4 (R68). -/
def base : Nat := 4 * baseWord

end Sys2Proof.Config
end

