-- ==== Sys2Proof/Syntax.lean ====
section
/-! DEFINITION. The eleven commands of R82, one constructor per row of the opcode table. A command's byte string operand
and its scalar operand are not part of the command word (R81, R84): they are read from the state. -/

namespace Sys2Proof

/-- The CTX field of a command word, bits 11:8 (R80): any of its sixteen values, in range or not (R83; log 9). -/
abbrev CtxField := BitVec 4

/-- One command (R82). Only the ACE commands carry a context number (R80). -/
inductive Instr where
  /-- SYS.NOP, R230. -/
  | sysNop
  /-- SYS.CLRERR, R231. -/
  | sysClrerr
  /-- AKD.CSUM, R102. -/
  | akdCsum
  /-- AKD.HKEY, R104. -/
  | akdHkey
  /-- AKD.CKEY, R106. -/
  | akdCkey
  /-- ACE.INIT cN, R122. -/
  | aceInit (ctx : CtxField)
  /-- ACE.DEC cN, R130. -/
  | aceDec (ctx : CtxField)
  /-- NKD.DERIVE, R185. -/
  | nkdDerive
  /-- NKD.LOAD, R186. -/
  | nkdLoad
  /-- NPC.ENC, R202. -/
  | npcEnc
  /-- NPC.DEC, R206. -/
  | npcDec
  deriving DecidableEq, Repr

end Sys2Proof
end

