-- ==== Sys2Proof/WellFormed.lean ====
section
/-! DEFINITION. When a decoded command is legal (R83): the one check left after the word's fixed bits. -/

namespace Sys2Proof

/-- R83: an ACE command names a context below NCTX; no other command has anything to check. An ACE command that fails
this raises IllegalCommand in its meaning. -/
def Instr.wf : Instr → Bool
  | .sysNop => true
  | .sysClrerr => true
  | .akdCsum => true
  | .akdHkey => true
  | .akdCkey => true
  | .aceInit ctx => decide (ctx.toNat < Config.nctx)
  | .aceDec ctx => decide (ctx.toNat < Config.nctx)
  | .nkdDerive => true
  | .nkdLoad => true
  | .npcEnc => true
  | .npcDec => true

end Sys2Proof
end

