-- ==== Sys2Proof/Decode.lean ====
section
/-! DEFINITION. Command words: the decoder of R80, R82, R83 and R86, total on every 32-bit word and rejecting by name, and
after it the encoder of R87. -/

namespace Sys2Proof

/-- Why a word is no command (R86). Every reason ends in the same IllegalCommand (R244). Safe: R86 names each case. -/
inductive DecodeError where
  /-- One of bits 31:12 is set (R80). -/
  | reservedBits
  /-- OPC is not in the opcode map (R82). -/
  | unknownOpcode
  /-- CTX is nonzero on a command that has no context (R83). -/
  | ctxNotZero
  deriving DecidableEq, Repr

/-- OPC, bits 7:0 of a command word (R80). -/
def opcField (w : Word) : Byte := w.extractLsb' 0 8

/-- CTX, bits 11:8 of a command word (R80). -/
def ctxField (w : Word) : CtxField := w.extractLsb' 8 4

/-- Bits 31:12 of a command word, which must be 0 (R80). -/
def reservedField (w : Word) : BitVec 20 := w.extractLsb' 12 20

/-- The opcode map of R82: what an OPC value and the CTX field beside it stand for, the zero check on CTX still to come. -/
def opcodeMap (opc : Byte) (ctx : CtxField) : Option Instr :=
  if opc = 0x00#8 then some .sysNop
  else if opc = 0x01#8 then some .sysClrerr
  else if opc = 0x10#8 then some .akdCsum
  else if opc = 0x11#8 then some .akdHkey
  else if opc = 0x12#8 then some .akdCkey
  else if opc = 0x20#8 then some (.aceInit ctx)
  else if opc = 0x21#8 then some (.aceDec ctx)
  else if opc = 0x30#8 then some .nkdDerive
  else if opc = 0x31#8 then some .nkdLoad
  else if opc = 0x32#8 then some .npcEnc
  else if opc = 0x33#8 then some .npcDec
  else none

/-- Does the command take a context number (R80)? -/
def Instr.takesCtx : Instr → Bool
  | .sysNop => false
  | .sysClrerr => false
  | .akdCsum => false
  | .akdHkey => false
  | .akdCkey => false
  | .aceInit _ => true
  | .aceDec _ => true
  | .nkdDerive => false
  | .nkdLoad => false
  | .npcEnc => false
  | .npcDec => false

/-- The command a word stands for, or why it is illegal (R80, R82, R83, R86). A context number out of range is left to
`Instr.wf` and to the command's meaning, which raises the same IllegalCommand (log 9). -/
def decode (w : Word) : Except DecodeError Instr :=
  if reservedField w ≠ 0#20 then .error .reservedBits
  else
    match opcodeMap (opcField w) (ctxField w) with
    | none => .error .unknownOpcode
    | some i => if i.takesCtx = false ∧ ctxField w ≠ 0#4 then .error .ctxNotZero else .ok i

/-- The decoder on a row of the opcode table: the low `nbits` bits of `w` are the instruction, every bit above is 0. The
host writes a command as one whole 32-bit register access (R44), so there is no byte order to lay out (R66). -/
def decodeTableWord (nbits w : Nat) : Option Instr :=
  match decode (BitVec.ofNat 32 (w % 2 ^ nbits)) with
  | .ok i => some i
  | .error _ => none

/-- The OPC of each command (R82). -/
def Instr.opc : Instr → Byte
  | .sysNop => 0x00#8
  | .sysClrerr => 0x01#8
  | .akdCsum => 0x10#8
  | .akdHkey => 0x11#8
  | .akdCkey => 0x12#8
  | .aceInit _ => 0x20#8
  | .aceDec _ => 0x21#8
  | .nkdDerive => 0x30#8
  | .nkdLoad => 0x31#8
  | .npcEnc => 0x32#8
  | .npcDec => 0x33#8

/-- The CTX field of each command, 0 where it has none (R80, R83). -/
def Instr.ctx : Instr → CtxField
  | .sysNop => 0#4
  | .sysClrerr => 0#4
  | .akdCsum => 0#4
  | .akdHkey => 0#4
  | .akdCkey => 0#4
  | .aceInit c => c
  | .aceDec c => c
  | .nkdDerive => 0#4
  | .nkdLoad => 0#4
  | .npcEnc => 0#4
  | .npcDec => 0#4

/-- R87: the command word is OPC + 256 * ctx. -/
def encode (i : Instr) : Word := BitVec.ofNat 32 (i.opc.toNat + 256 * i.ctx.toNat)

end Sys2Proof
end

