-- ==== Sys2Proof/Machine/State.lean ====
section
/-! DEFINITION. What TWC holds between two host accesses (`10_state.md`), and its reset (R48, R271). -/

namespace Sys2Proof.Machine

open Sys2Proof

/-- The outcome codes of R240. `integrity` and `truncation` are the host's (R250): no command ends with them. -/
inductive ErrCode where
  /-- code 0, success -/
  | ok
  /-- code 1, ConfigurationError, R241 -/
  | configuration
  /-- code 2, IntegrityError, raised by the host only, R250 -/
  | integrity
  /-- code 3, BoundsError, R242 -/
  | bounds
  /-- code 4, FormatMismatch, not fatal, R243 -/
  | formatMismatch
  /-- code 5, TruncationError, raised by the host only, R250 -/
  | truncation
  /-- code 6, IllegalCommand, R244 -/
  | illegalCommand
  /-- code 7, NotInitialised, R245 -/
  | notInitialised
  deriving DecidableEq, Repr

/-- The registers of a context that the feedback network works on: X[0..15] (R21) and the accumulators A and B (R22). -/
structure Core where
  x : Vector Word 16
  a : Word
  b : Word
  deriving DecidableEq, Repr

/-- The current keystream block KS[0..15] (R23) with the cursor CUR, 0 to 16, into it (R24). -/
structure Block where
  ks : Vector Word 16
  cur : Fin 17
  deriving DecidableEq, Repr

/-- The content of an initialised archive context (R20). `block = none` is the interval from ACE.INIT to the first
regeneration, in which KS holds no value and CUR is 16 (R23, R24; log 5). -/
structure Ctx where
  core : Core
  block : Option Block
  /-- KBUF, oldest byte first (R25). -/
  kbuf : List Byte
  deriving DecidableEq, Repr

/-- CUR of R24 as a number: 16 while no block has been generated (R122). -/
def Ctx.cur (k : Ctx) : Nat :=
  match k.block with
  | none => 16
  | some b => b.cur.val

/-- KS of R23: absent until the first regeneration after ACE.INIT. -/
def Ctx.ks (k : Ctx) : Option (Vector Word 16) := k.block.map Block.ks

/-- One event at the host's side of TWC: a register access (R44, R232) or the reset input (R270). -/
inductive HostEvent where
  /-- write the 32-bit value to the control register of that number -/
  | write (reg : Nat) (value : Word)
  /-- read the control register of that number -/
  | read (reg : Nat)
  /-- the reset event of R270 -/
  | reset
  deriving DecidableEq, Repr

/-- The state of TWC (`10_state.md`), and in the last two fields the model's own view of the host. -/
structure State where
  /-- The archive contexts (R20). `none` is VALID = 0, in which the rest of the context holds no value (R26, R48; log 4). -/
  ctxs : Vector (Option Ctx) Config.nctx
  /-- NKEY[0..267] (R33). `none` is NKVALID = 0, in which NKEY holds no value (R34, R48; log 4). -/
  nkey : Option (Vector Byte 268)
  /-- ARG0 (R40). -/
  arg0 : Word
  /-- STATUS.ERR (R42, R240). -/
  err : ErrCode
  /-- STATUS.OVF, bit 8 (R42). -/
  ovf : Bool
  /-- STATUS.S_CFG, bit 9 (R42). -/
  sCfg : Bool
  /-- STATUS.S_BND, bit 11 (R42). -/
  sBnd : Bool
  /-- STATUS.S_ILL, bit 14 (R42). -/
  sIll : Bool
  /-- STATUS.S_NINIT, bit 15 (R42). -/
  sNinit : Bool
  /-- RES0 (R43). -/
  res0 : Word
  /-- RES1 (R43). -/
  res1 : Word
  /-- RES2 (R43). -/
  res2 : Word
  /-- The input queue, oldest byte first (R41). -/
  din : List Byte
  /-- The output queue, oldest byte first (R41). -/
  dout : List Byte
  /-- The index into the list of commands that stands where another machine has a pc (R36; log 11). -/
  cmdIndex : Nat
  /-- The MODEL's own: the host events still to come, the next one first (log 1). -/
  pending : List HostEvent
  /-- The MODEL's own: the value the most recent host event returned, if it was a read (R232; log 2). -/
  rdata : Option Word
  deriving DecidableEq, Repr

/-- R48, R271: valid bits 0 (contexts and NKEY hold no value), every register 0, both queues empty. -/
def State.reset : State where
  ctxs := Vector.replicate Config.nctx none
  nkey := none
  arg0 := 0#32
  err := .ok
  ovf := false
  sCfg := false
  sBnd := false
  sIll := false
  sNinit := false
  res0 := 0#32
  res1 := 0#32
  res2 := 0#32
  din := []
  dout := []
  cmdIndex := 0
  pending := []
  rdata := none

/-- The machine has no way to stop with a fault: every error of R240 is a next state (R246, R249), an access to a register
that does not exist reads 0 (R38), and every command terminates (R282). -/
inductive Fault where
  deriving DecidableEq, Repr

/-- Why a command could have no meaning in the model. -/
inductive Refusal where
  /-- raised by a `Dispatch.exec` arm whose command has no meaning yet; safe. No arm raises it. -/
  | notModelled (mnemonic : String)
  deriving DecidableEq, Repr

end Sys2Proof.Machine
end

