-- ==== Sys2Proof/Machine/Flags.lean ====
section
/-! DEFINITION. STATUS (R42): error codes, sticky bits, the valid bits, and the word a host reads. TWC has no condition
flags (R37). -/

namespace Sys2Proof.Machine

open Sys2Proof

/-- The code numbers of R240. -/
def ErrCode.code : ErrCode → Byte
  | .ok => 0#8
  | .configuration => 1#8
  | .integrity => 2#8
  | .bounds => 3#8
  | .formatMismatch => 4#8
  | .truncation => 5#8
  | .illegalCommand => 6#8
  | .notInitialised => 7#8

/-- The sticky bit rule of R42 and R246: fatal code k in 1, 3, 6, 7 sets bit 8 + k; FormatMismatch sets none (R243); the
host's own codes 2 and 5 have no bit (R42). -/
def State.setSticky (e : ErrCode) (s : State) : State :=
  match e with
  | .ok => s
  | .configuration => { s with sCfg := true }
  | .integrity => s
  | .bounds => { s with sBnd := true }
  | .formatMismatch => s
  | .truncation => s
  | .illegalCommand => { s with sIll := true }
  | .notInitialised => { s with sNinit := true }

/-- `STATUS[15:8] <- 0` (R231): OVF and every sticky error bit. -/
def State.clearSticky (s : State) : State :=
  { s with ovf := false, sCfg := false, sBnd := false, sIll := false, sNinit := false }

/-- `VALID[c]` (R26): whether context c holds a value. A context number of NCTX or more reads 0 (R42). -/
def State.valid (s : State) (c : Nat) : Bool :=
  if h : c < Config.nctx then (s.ctxs[c]).isSome else false

/-- NKVALID (R34). -/
def State.nkvalid (s : State) : Bool := s.nkey.isSome

/-- STATUS[15:8]: S_NINIT, S_ILL, 0, 0, S_BND, 0, S_CFG, OVF from bit 15 down (R42). -/
def State.stickyByte (s : State) : Byte :=
  BitVec.ofBool s.sNinit ++ BitVec.ofBool s.sIll ++ 0#1 ++ 0#1 ++ BitVec.ofBool s.sBnd ++ 0#1
    ++ BitVec.ofBool s.sCfg ++ BitVec.ofBool s.ovf

/-- STATUS[31:24]: VALID of context c in bit 24 + c (R42). -/
def State.cvalidByte (s : State) : Byte :=
  BitVec.ofBool (s.valid 7) ++ BitVec.ofBool (s.valid 6) ++ BitVec.ofBool (s.valid 5) ++ BitVec.ofBool (s.valid 4)
    ++ BitVec.ofBool (s.valid 3) ++ BitVec.ofBool (s.valid 2) ++ BitVec.ofBool (s.valid 1) ++ BitVec.ofBool (s.valid 0)

/-- The value a read of STATUS returns (R42): CVALID in 31:24, zeros in 23:17, NKVALID in 16, the sticky bits in 15:8,
ERR in 7:0. -/
def State.status (s : State) : Word :=
  s.cvalidByte ++ 0#7 ++ BitVec.ofBool s.nkvalid ++ s.stickyByte ++ s.err.code

end Sys2Proof.Machine
end

