-- ==== Sys2Proof/Machine/Operands.lean ====
section
/-! DEFINITION. The operands of a command (R81, R84, R85): the byte string `data`, the scalar `arg0`, the context CTX, and
the length constraints. -/

namespace Sys2Proof.Machine

open Sys2Proof

/-- `data`: the whole content of the input queue at launch, first byte first (R81, R85). -/
def State.data (s : State) : List Byte := s.din

/-- `arg0` used whole, an unsigned 32-bit number (R84). -/
def State.seed (s : State) : Word := s.arg0

/-- `arg0[7:0]`, the sequence number of NPC.ENC; bits 31:8 are ignored (R84, D40). -/
def State.seqNumber (s : State) : Byte := s.arg0.extractLsb' 0 8

/-- The content of the context a CTX field names: nothing when it is not initialised (R26) or does not exist. -/
def State.ctxAt (s : State) (c : CtxField) : Option Ctx :=
  if h : c.toNat < Config.nctx then s.ctxs[c.toNat] else none

/-- Byte i of a byte string (R16), read only where a rule has bounded i. -/
def byteAt (d : List Byte) (i : Nat) : Byte := d.getD i 0#8

/-- The length constraint "≥ 1" of R85 on key material (AKD.HKEY, AKD.CKEY). -/
def requireNonempty (d : List Byte) : Except ErrCode Unit :=
  if d.length = 0 then .error .configuration else .ok ()

/-- The length constraint "= n" of R85 on a key (ACE.INIT, NKD.LOAD). -/
def requireLength (n : Nat) (d : List Byte) : Except ErrCode Unit :=
  if d.length = n then .ok () else .error .configuration

end Sys2Proof.Machine
end

