-- ==== Sys2Proof/Machine/Ops.lean ====
section
/-! DEFINITION. The shared operations of every command: how a launch begins (R92), how a command ends well (R92, R43), how
it ends in an error (R246, this hardware's whole exception entry), and the write of a context (R20). There is no return
from an error (R249). -/

namespace Sys2Proof.Machine

open Sys2Proof

/-- The result of a successful command (R81): the byte string for the output queue, and a value for each result register
the command's rule names. -/
structure Result where
  out : List Byte
  res0 : Option Word := none
  res1 : Option Word := none
  res2 : Option Word := none
  deriving DecidableEq, Repr

/-- What a launch does before decoding (R92 step 3): it empties the output queue. The command index advances, whatever the
outcome (R36). -/
def State.beginLaunch (s : State) : State := { s with dout := [], cmdIndex := s.cmdIndex + 1 }

/-- A command that succeeds (R92 step 3): ERR is 0, the result registers its rule names and the output queue are written,
the other result registers keep their value (R43), the input queue is emptied. -/
def State.succeed (r : Result) (s : State) : State :=
  { s with
    err := .ok
    res0 := r.res0.getD s.res0
    res1 := r.res1.getD s.res1
    res2 := r.res2.getD s.res2
    dout := r.out
    din := [] }

/-- A command that ends with `e` (R246): the output queue is empty, ERR is the code, a fatal code sets its sticky bit, the
input queue is emptied, and nothing else changes. -/
def State.raiseError (e : ErrCode) (s : State) : State :=
  { s.setSticky e with dout := [], err := e, din := [] }

/-- The end of a command whose checks and result are given: every check comes before the first write (R246, R247). -/
def State.finish (r : Except ErrCode Result) (s : State) : State :=
  match r with
  | .ok r => s.succeed r
  | .error e => s.raiseError e

/-- Write the content of the context a CTX field names; it becomes valid (R20, R26). -/
def State.setCtx (c : CtxField) (k : Ctx) (s : State) : State :=
  if h : c.toNat < Config.nctx then { s with ctxs := s.ctxs.set c.toNat (some k) } else s

/-- Store a network key; NKVALID becomes 1 (R33, R34). -/
def State.setNkey (k : Vector Byte 268) (s : State) : State := { s with nkey := some k }

end Sys2Proof.Machine
end

