-- ==== Sys2Proof/Machine/Bus.lean ====
section
/-! DEFINITION. Host accesses to the control registers (R38, R232), all but the launch that a write to CMD is. No access
raises an error (R44, R232). -/

namespace Sys2Proof.Machine

open Sys2Proof

/-- The bus address of control register n (R68). -/
def regAddress (n : Nat) : Nat := Config.base + 4 * n

/-- The control register a bus address names, if it is the address of one (R68). -/
def regOfAddress (addr : Nat) : Option Nat :=
  if Config.base ≤ addr ∧ (addr - Config.base) % 4 = 0 then some ((addr - Config.base) / 4) else none

/-- A write of a byte to DIN (R41): appended, or dropped with OVF set when the queue is full. -/
def State.pushDin (b : Byte) (s : State) : State :=
  if s.din.length < Config.bufcap then { s with din := s.din ++ [b] } else { s with ovf := true }

/-- A read of DOUT (R41): the oldest byte, zero-extended, is removed; 0 and no change when the queue is empty. -/
def State.popDout (s : State) : Word × State :=
  match s.dout with
  | [] => (0#32, s)
  | b :: rest => (b.setWidth 32, { s with dout := rest })

/-- A write of v to register r, other than CMD (R232). Only ARG0 and DIN have an effect; the other registers and every
number of 10 or more ignore it (R38). -/
def State.writeReg (r : Nat) (v : Word) (s : State) : State :=
  match r with
  | 1 => { s with arg0 := v }
  | 6 => s.pushDin (v.extractLsb' 0 8)
  | _ => s

/-- A read of register r (R232): the value returned, and the state after. Only DOUT changes the state; CMD, DIN and every
number of 10 or more read 0 (R38). -/
def State.readReg (r : Nat) (s : State) : Word × State :=
  match r with
  | 1 => (s.arg0, s)
  | 2 => (s.status, s)
  | 3 => (s.res0, s)
  | 4 => (s.res1, s)
  | 5 => (s.res2, s)
  | 7 => s.popDout
  | 8 => (BitVec.ofNat 32 s.din.length, s)
  | 9 => (BitVec.ofNat 32 s.dout.length, s)
  | _ => (0#32, s)

/-- The reset event (R270, R271): the state of R48. The host's list and the command index over it are not the machine's
to reset (log 10). -/
def State.resetEvent (s : State) : State := { State.reset with cmdIndex := s.cmdIndex, pending := s.pending }

end Sys2Proof.Machine
end

