-- ==== Sys2Proof/Machine/Bits.lean ====
section
/-! DEFINITION. Bit fields, sign extension and byte order: the notation of R12 to R16. -/

namespace Sys2Proof.Machine

/-- `byte_n(w) = w[8n+7:8n]`, byte 0 least significant (R12, D21). -/
def byteN (w : Word) (n : Nat) : Byte := w.extractLsb' (8 * n) 8

/-- The bytes of a word in KBUF order, least significant first (R64, R129). -/
def wordBytes (w : Word) : List Byte := [byteN w 0, byteN w 1, byteN w 2, byteN w 3]

/-- `sext8_32(b)` of R15: the byte as a signed 8-bit value, widened to 32 bits. -/
def sext8to32 (b : Byte) : Word := b.signExtend 32

/-- `shl32(a, n)` of R13. -/
def shl32 (a : Word) (n : Nat) : Word := a <<< n

/-- `shr32(a, n)` of R13: zeros enter at the top. -/
def shr32 (a : Word) (n : Nat) : Word := a >>> n

/-- `not32(a) = a xor 0xFFFFFFFF` (R13). -/
def not32 (a : Word) : Word := a ^^^ 0xFFFFFFFF#32

/-- `LE(s)` of R16: the little-endian number of a byte string. -/
def le : List Byte → Nat
  | [] => 0
  | b :: s => b.toNat + 256 * le s

/-- `LEbytes(v, n)` of R16: the n bytes, least significant first, of `v mod 256^n`. -/
def leBytes (v : Nat) : Nat → List Byte
  | 0 => []
  | n + 1 => BitVec.ofNat 8 (v % 256) :: leBytes (v / 256) n

/-- `BE16(h, l) = 256*h + l` (R16). -/
def be16 (h l : Byte) : Nat := 256 * h.toNat + l.toNat

end Sys2Proof.Machine
end

