-- ==== Sys2Proof/Machine/Ace.lean ====
section
/-! DEFINITION. Unit ACE (`41_archive_cipher_engine.md`): the primitives, the key schedule, the keystream, ACE.INIT and
ACE.DEC. The schedules `mixStep` (R126) and `regenStep` (R128) are the spec's decisions and stand alone, so that they can
be replaced (log 12). -/

namespace Sys2Proof.Machine

open Sys2Proof

/-- The nonlinear feedback primitive F of R120, with any number of extras. -/
def feedback (rom : Config.Rom) (target src : Word) (extras : List Word) : Word :=
  extras.foldl (· ^^^ ·)
    (shl32 target 8 ^^^ shr32 src 8 ^^^ rom .divtable (byteN src 0) ^^^ rom .multable (byteN target 3))

/-- The substitution primitive SBOX of R121. -/
def sbox (rom : Config.Rom) (w : Word) : Word :=
  rom .t0 (byteN w 0) ^^^ rom .t1 (byteN w 1) ^^^ rom .t2 (byteN w 2) ^^^ rom .t3 (byteN w 3)

/-- One key word of R123: the four bytes, each sign-extended, shifted into place and merged by OR, the first byte most
significant (R65, D22). -/
def keyWord (b0 b1 b2 b3 : Byte) : Word :=
  shl32 (sext8to32 b0) 24 ||| shl32 (sext8to32 b1) 16 ||| shl32 (sext8to32 b2) 8 ||| sext8to32 b3

/-- Key word j of a 16-byte key (R123). -/
def loadKeyWord (key : List Byte) (j : Nat) : Word :=
  keyWord (byteAt key (4 * j)) (byteAt key (4 * j + 1)) (byteAt key (4 * j + 2)) (byteAt key (4 * j + 3))

/-- The seeding pattern `[k, ~k, k, ~k]` of R124, X[0] first. -/
def seedRegisters (k0 k1 k2 k3 : Word) : Vector Word 16 :=
  #v[k0, k1, k2, k3, not32 k0, not32 k1, not32 k2, not32 k3,
     k0, k1, k2, k3, not32 k0, not32 k1, not32 k2, not32 k3]

/-- The register positions from 15 down to 0, the order of R125 and R128. -/
def positionsDown : List (Fin 16) := [15, 14, 13, 12, 11, 10, 9, 8, 7, 6, 5, 4, 3, 2, 1, 0]

/-- One step of the mixing pass at position a (R126). Index arithmetic on X is modulo 16 (R21). -/
def mixStep (rom : Config.Rom) (k : Core) (a : Fin 16) : Core :=
  let out := (k.a + k.x.get (a + 1)) ^^^ k.b
  let x := k.x.set a.val (feedback rom (k.x.get a) (k.x.get (a + 5)) [k.x.get (a + 14), out])
  let t := k.b + x.get (a + 11)
  { x := x, a := t, b := sbox rom k.a }

/-- One iteration of the mixing pass: all 16 registers from high index to low (R125). -/
def mixIteration (rom : Config.Rom) (k : Core) : Core := positionsDown.foldl (mixStep rom) k

/-- The mixing pass: two iterations (R125, R126). -/
def mixingPass (rom : Config.Rom) (k : Core) : Core := mixIteration rom (mixIteration rom k)

/-- Initialize of R122 on a 16-byte key: the content of a freshly initialised context. KS has no value and CUR is 16. -/
def initialize16 (rom : Config.Rom) (key : List Byte) : Ctx where
  core := mixingPass rom
    { x := seedRegisters (loadKeyWord key 0) (loadKeyWord key 1) (loadKeyWord key 2) (loadKeyWord key 3)
      a := 0#32
      b := 0#32 }
  block := none
  kbuf := []

/-- One step of RegenerateBlock at register position a (R128): the new registers, and the keystream word. -/
def regenStep (rom : Config.Rom) (k : Core) (a : Fin 16) : Core × Word :=
  let t := k.b + k.x.get (a + 11)
  let b := sbox rom k.a
  let x := k.x.set a.val (feedback rom (k.x.get a) (k.x.get (a + 5)) [k.x.get (a + 14)])
  ({ x := x, a := t, b := b }, (t + x.get a) ^^^ b ^^^ x.get (a + 15))

/-- RegenerateBlock of R128 over the positions still to visit: each writes its keystream word at KS[15 - a]. -/
def regenSteps (rom : Config.Rom) : List (Fin 16) → Core → Vector Word 16 → Core × Vector Word 16
  | [], k, ks => (k, ks)
  | a :: rest, k, ks => regenSteps rom rest (regenStep rom k a).1 (ks.set a.rev.val (regenStep rom k a).2)

/-- RegenerateBlock of R128: the new registers and accumulators, and the 16 fresh keystream words. -/
def regenerateBlock (rom : Config.Rom) (k : Core) : Core × Vector Word 16 :=
  regenSteps rom positionsDown k (Vector.replicate 16 0#32)

/-- Move the word under the cursor into KBUF (R129). -/
def drawFrom (core : Core) (ks : Vector Word 16) (cur : Fin 16) (kbuf : List Byte) : Ctx where
  core := core
  block := some { ks := ks, cur := cur.succ }
  kbuf := kbuf ++ wordBytes (ks.get cur)

/-- One turn of the loop of R129: regenerate when CUR is 16, then draw one word. -/
def drawWord (rom : Config.Rom) (k : Ctx) : Ctx :=
  let fresh := drawFrom (regenerateBlock rom k.core).1 (regenerateBlock rom k.core).2 0 k.kbuf
  match k.block with
  | none => fresh
  | some b => if h : b.cur.val < 16 then drawFrom k.core b.ks ⟨b.cur.val, h⟩ k.kbuf else fresh

/-- The loop of `Fill(n)` of R129, with a bound on its turns. -/
def fillLoop (rom : Config.Rom) (n : Nat) : Nat → Ctx → Ctx
  | 0, k => k
  | turns + 1, k => if k.kbuf.length < n then fillLoop rom n turns (drawWord rom k) else k

/-- `Fill(n)` of R129: draw words while KBUF holds fewer than n bytes. A turn adds 4 bytes, so n turns are enough. -/
def fill (rom : Config.Rom) (n : Nat) (k : Ctx) : Ctx := fillLoop rom n n k

/-- R131: `LEbytes((LE(c) - LE(k)) mod 2^(8L), L)` with L the length of the ciphertext; the last borrow is dropped. -/
def subtractLE (c k : List Byte) : List Byte :=
  leBytes (((le c : Int) - (le k : Int)) % (2 ^ (8 * c.length) : Nat)).toNat c.length

/-- Decrypt of R130 on an initialised context: the plaintext, and the context after. A length of 0 changes nothing (R133). -/
def decrypt (rom : Config.Rom) (data : List Byte) (k : Ctx) : List Byte × Ctx :=
  if data.length = 0 then ([], k)
  else
    let f := fill rom data.length k
    (subtractLE data (f.kbuf.take data.length), { f with kbuf := f.kbuf.drop data.length })

/-- ACE.INIT on a state (R122): IllegalCommand for a context out of range (R83), ConfigurationError unless the key has 16
bytes, the context then unchanged. -/
def cmdAceInit (p : Config.Params) (c : CtxField) (s : State) : State :=
  if Config.nctx ≤ c.toNat then s.raiseError .illegalCommand
  else
    match requireLength 16 s.data with
    | .error e => s.raiseError e
    | .ok () => (s.setCtx c (initialize16 p.rom s.data)).succeed { out := [] }

/-- ACE.DEC on a state (R130): IllegalCommand for a context out of range (R83), NotInitialised when VALID is 0 (R245), the
empty operand included. -/
def cmdAceDec (p : Config.Params) (c : CtxField) (s : State) : State :=
  if Config.nctx ≤ c.toNat then s.raiseError .illegalCommand
  else
    match s.ctxAt c with
    | none => s.raiseError .notInitialised
    | some k => (s.setCtx c (decrypt p.rom s.data k).2).succeed { out := (decrypt p.rom s.data k).1 }

/-- The meaning of ACE.INIT (R122). -/
def execAceInit (c : CtxField) (s : State) : Host.Outcome State Fault Refusal := .next (cmdAceInit Config.hw c s)

/-- The meaning of ACE.DEC (R130). -/
def execAceDec (c : CtxField) (s : State) : Host.Outcome State Fault Refusal := .next (cmdAceDec Config.hw c s)

end Sys2Proof.Machine
end

