-- ==== Sys2Proof/Machine/Akd.lean ====
section
/-! DEFINITION. Unit AKD (`40_archive_key_derivation.md`): AKD.CSUM, AKD.HKEY, AKD.CKEY. Its three operations are functions
of their operands alone (R100). -/

namespace Sys2Proof.Machine

open Sys2Proof

/-- The two running sums of R102 over the bytes as numbers 0 to 255 (R101): the sum of the values, the sum of 3 times them. -/
def charSums (data : List Byte) : Nat × Nat :=
  data.foldl (fun acc b => (acc.1 + b.toNat, acc.2 + 3 * b.toNat)) (0, 0)

/-- computeChecksumOffsets of R102: offset1, seed2 and rawChecksum2 in RES0, RES1, RES2. -/
def checksumOffsets (data : List Byte) : Result :=
  { out := []
    res0 := some (BitVec.ofNat 32 ((charSums data).1 % 312 + 30))
    res1 := some (BitVec.ofNat 32 ((charSums data).2 % 212 + 33))
    res2 := some (BitVec.ofNat 32 (charSums data).2) }

/-- Byte i of the buffer of R104: `(i + data[i mod n]) mod 256`. -/
def headerKeyByte (data : List Byte) (i : Nat) : Byte :=
  BitVec.ofNat 8 ((i + (byteAt data (i % data.length)).toNat) % 256)

/-- deriveHeaderKey of R104: the first 16 bytes of the 128-byte buffer; ConfigurationError on an empty string. -/
def deriveHeaderKey (combined : List Byte) : Except ErrCode Result :=
  match requireNonempty combined with
  | .error e => .error e
  | .ok () => .ok { out := ((List.range 128).map (headerKeyByte combined)).take 16 }

/-- The backward cyclic index of R106, `(seed - i) mod n`, Euclidean (R14). -/
def contentKeyIndex (seed i n : Nat) : Nat := (((seed : Int) - (i : Int)) % (n : Int)).toNat

/-- Byte i of the buffer of R106: `(i + (i mod 3 + 2) * data[index]) mod 256`. -/
def contentKeyByte (data : List Byte) (seed i : Nat) : Byte :=
  BitVec.ofNat 8 ((i + (i % 3 + 2) * (byteAt data (contentKeyIndex seed i data.length)).toNat) % 256)

/-- deriveContentKey of R106: the first 16 bytes of the 128-byte buffer; ConfigurationError on an empty string. -/
def deriveContentKey (combined : List Byte) (seed : Word) : Except ErrCode Result :=
  match requireNonempty combined with
  | .error e => .error e
  | .ok () => .ok { out := ((List.range 128).map (contentKeyByte combined seed.toNat)).take 16 }

/-- AKD.CSUM on a state (R102). -/
def cmdAkdCsum (s : State) : State := s.succeed (checksumOffsets s.data)

/-- AKD.HKEY on a state (R104). -/
def cmdAkdHkey (s : State) : State := s.finish (deriveHeaderKey s.data)

/-- AKD.CKEY on a state (R106). -/
def cmdAkdCkey (s : State) : State := s.finish (deriveContentKey s.data s.seed)

/-- The meaning of AKD.CSUM (R102). -/
def execAkdCsum (s : State) : Host.Outcome State Fault Refusal := .next (cmdAkdCsum s)

/-- The meaning of AKD.HKEY (R104). -/
def execAkdHkey (s : State) : Host.Outcome State Fault Refusal := .next (cmdAkdHkey s)

/-- The meaning of AKD.CKEY (R106). -/
def execAkdCkey (s : State) : Host.Outcome State Fault Refusal := .next (cmdAkdCkey s)

end Sys2Proof.Machine
end

