-- ==== Sys2Proof/Machine/Nkd.lean ====
section
/-! DEFINITION. Unit NKD (`43_network_key_derivation.md`): NKD.DERIVE and NKD.LOAD. -/

namespace Sys2Proof.Machine

open Sys2Proof

/-- The slice of R182: ConfigurationError when size is 0, then BoundsError when the slice ends past the blob. -/
def keySlice (offset size : Nat) (blob : List Byte) : Except ErrCode (List Byte) :=
  if size = 0 then .error .configuration
  else if blob.length < offset + size then .error .bounds
  else .ok ((blob.drop offset).take size)

/-- The identity table the KSA starts from (R183). -/
def identityTable : Vector Byte 256 := Vector.ofFn (fun i => BitVec.ofFin i)

/-- Swap two entries of the table (R183). -/
def swapEntries (t : Vector Byte 256) (i j : Byte) : Vector Byte 256 :=
  (t.set i.toNat (t.get j.toFin)).set j.toNat (t.get i.toFin)

/-- One round of R183: `j <- (j + S[i] + k[i mod size]) mod 256`, then swap S[i] and S[j]. -/
def ksaRound (k : List Byte) (st : Vector Byte 256 × Byte) (i : Nat) : Vector Byte 256 × Byte :=
  let j := st.2 + st.1.get (BitVec.ofNat 8 i).toFin + byteAt k (i % k.length)
  (swapEntries st.1 (BitVec.ofNat 8 i) j, j)

/-- The KSA of R183: 256 rounds from the identity table with j = 0. -/
def ksa (k : List Byte) : Vector Byte 256 := ((List.range 256).foldl (ksaRound k) (identityTable, 0#8)).1

/-- Prepend and fix-up of R184: `NKHDR ++ S`, then byte 11 becomes byte 12. -/
def prependHeader (hdr : Vector Byte 12) (table : Vector Byte 256) : Vector Byte 268 :=
  let key : Vector Byte 268 := hdr ++ table
  key.set 11 key[12]

/-- deriveKey of R180 and R185 for the fields (offset, size) of the seed. -/
def deriveKey (p : Config.Params) (seed : Word) (blob : List Byte) : Except ErrCode (Vector Byte 268) :=
  match keySlice (p.nkfields seed).1.val (p.nkfields seed).2.val blob with
  | .error e => .error e
  | .ok k => .ok (prependHeader p.nkhdr (ksa k))

/-- NKD.DERIVE on a state (R185): the key is stored and returned, RES0 and RES1 are offset and size; on an error nothing
else is written. -/
def cmdNkdDerive (p : Config.Params) (s : State) : State :=
  match deriveKey p s.seed s.data with
  | .error e => s.raiseError e
  | .ok key =>
    (s.setNkey key).succeed
      { out := key.toList
        res0 := some (BitVec.ofNat 32 (p.nkfields s.seed).1.val)
        res1 := some (BitVec.ofNat 32 (p.nkfields s.seed).2.val) }

/-- NKD.LOAD on a state (R186): the 268 bytes as given, with no fix-up; ConfigurationError on another length. -/
def cmdNkdLoad (s : State) : State :=
  if h : s.data.length = 268 then
    (s.setNkey ⟨s.data.toArray, by simpa using h⟩).succeed { out := [] }
  else s.raiseError .configuration

/-- The meaning of NKD.DERIVE (R185). -/
def execNkdDerive (s : State) : Host.Outcome State Fault Refusal := .next (cmdNkdDerive Config.hw s)

/-- The meaning of NKD.LOAD (R186). -/
def execNkdLoad (s : State) : Host.Outcome State Fault Refusal := .next (cmdNkdLoad s)

end Sys2Proof.Machine
end

