-- ==== Sys2Proof/Machine/Npc.lean ====
section
/-! DEFINITION. Unit NPC (`44_network_packet_cipher.md`): NPC.ENC and NPC.DEC. The steps `encryptStep` (R204), `refill`
(R208) and `decryptByte` (R209) are the spec's decisions and stand alone, so that they can be replaced (log 13). -/

namespace Sys2Proof.Machine

open Sys2Proof

/-- `NKEY[12 + i]`, a byte of the table part of the key: in range for every byte i (R62). -/
def tableByte (key : Vector Byte 268) (i : Byte) : Byte := key[12 + i.toNat]'(by have := i.isLt; omega)

/-- One inner step of R204: the byte at the cursor is the XOR mask, the next one the addend. -/
def encryptStep (key : Vector Byte 268) (cur v : Byte) : Byte :=
  tableByte key (cur + 1#8) + (tableByte key cur ^^^ v)

/-- The inner steps for one byte (R204): the final candidate and the cursor, which moves by 2 modulo 256 each step. -/
def encryptSteps (key : Vector Byte 268) : Nat → Byte → Byte → Byte × Byte
  | 0, cur, v => (v, cur)
  | n + 1, cur, v => encryptSteps key n (cur + 2#8) (encryptStep key cur v)

/-- EncryptBytes of R204 from a carry byte and a cursor on: neither is reset between bytes (R203). -/
def encryptFrom (key : Vector Byte 268) : Byte → Byte → List Byte → List Byte
  | _, _, [] => []
  | acc, cur, b :: rest =>
    let r := encryptSteps key (key[0]).toNat cur (acc ^^^ b)
    r.1 :: encryptFrom key (acc ^^^ b) r.2 rest

/-- EncryptBytes of R204: the carry byte starts at NKEY[11], the cursor at 1. -/
def encryptBytes (key : Vector Byte 268) (payload : List Byte) : List Byte := encryptFrom key key[11] 1#8 payload

/-- The frame of R201 and R205: marker, big-endian length field, sequence number, reserved 0, ciphertext. -/
def frame (lengthField : Nat) (seq : Byte) (cipher : List Byte) : List Byte :=
  [0xAA#8, BitVec.ofNat 8 (lengthField / 256), BitVec.ofNat 8 (lengthField % 256), seq, 0x00#8] ++ cipher

/-- ParseFrame of R207: the length field, the sequence number and the payload ciphertext at byte 5. -/
def parseFrame (fr : List Byte) : Except ErrCode (Nat × Byte × List Byte) :=
  if fr.length = 0 ∨ byteAt fr 0 ≠ 0xAA#8 then .error .formatMismatch
  else if fr.length < 5 then .error .bounds
  else
    let l := be16 (byteAt fr 1) (byteAt fr 2)
    if l = 0 then .error .bounds
    else if fr.length < 5 + (l - 1) then .error .bounds
    else .ok (l, byteAt fr 3, (fr.drop 5).take (l - 1))

/-- The size of each scratch buffer, `16 * ((NKEY[0] + 30) >> 4)` (R208). -/
def scratchSize (key : Vector Byte 268) : Nat := 16 * (((key[0]).toNat + 30) >>> 4)

/-- The scratch buffers SA and SB and the advancing index of one NPC.DEC (R35, R208). -/
structure Scratch where
  sa : List Byte
  sb : List Byte
  idx : Byte
  deriving DecidableEq, Repr

/-- The scratch buffers at command start (R208): all zero, index 1. -/
def scratchStart (key : Vector Byte 268) : Scratch where
  sa := List.replicate (scratchSize key) 0#8
  sb := List.replicate (scratchSize key) 0#8
  idx := 1#8

/-- `Refill()` of R208 from entry t on, the number of entries still to refill given: the mask goes to SA, the addend to SB. -/
def refill (key : Vector Byte 268) : Nat → Nat → Scratch → Scratch
  | 0, _, b => b
  | n + 1, t, b =>
    refill key n (t + 1)
      { sa := b.sa.set t (tableByte key b.idx)
        sb := b.sb.set t (tableByte key (b.idx + 1#8))
        idx := b.idx + 2#8 }

/-- The inner loop of R209: positions t, t - 1, ..., 1, each a wrapping subtraction and an XOR. -/
def decryptSteps (b : Scratch) : Nat → Byte → Byte
  | 0, v => v
  | t + 1, v => decryptSteps b t ((v - byteAt b.sb (t + 1)) ^^^ byteAt b.sa (t + 1))

/-- One byte of R209: the inner loop from position NKEY[4] down, then the final pass at position 0 with the carry byte. -/
def decryptByte (key : Vector Byte 268) (b : Scratch) (acc c : Byte) : Byte :=
  (decryptSteps b (key[4]).toNat c - byteAt b.sb 0) ^^^ byteAt b.sa 0 ^^^ acc

/-- DecryptBytes of R209 from scratch buffers and a carry byte on. -/
def decryptFrom (key : Vector Byte 268) : Scratch → Byte → List Byte → List Byte
  | _, _, [] => []
  | b, acc, c :: rest =>
    let b' := refill key (key[0]).toNat 0 b
    let v := decryptByte key b' acc c
    v :: decryptFrom key b' (acc ^^^ v) rest

/-- DecryptBytes of R209: the carry byte starts at NKEY[11]. -/
def decryptBytes (key : Vector Byte 268) (cipher : List Byte) : List Byte :=
  decryptFrom key (scratchStart key) key[11] cipher

/-- Encrypt of R202 with a stored key: ConfigurationError when NKEY[0] is 0, then BoundsError for more than 65534 bytes. -/
def encryptPacket (key : Vector Byte 268) (seq : Byte) (payload : List Byte) : Except ErrCode Result :=
  if key[0] = 0#8 then .error .configuration
  else if 65534 < payload.length then .error .bounds
  else .ok
    { out := frame (payload.length + 1) seq (encryptBytes key payload)
      res0 := some (BitVec.ofNat 32 (payload.length + 1))
      res1 := some (seq.setWidth 32) }

/-- Decrypt of R206 with a stored key: the frame's checks (R207), then ConfigurationError when NKEY[0] is 0, then BoundsError
when NKEY[4] is outside the scratch buffers. -/
def decryptPacket (key : Vector Byte 268) (fr : List Byte) : Except ErrCode Result :=
  match parseFrame fr with
  | .error e => .error e
  | .ok (l, seq, cipher) =>
    if key[0] = 0#8 then .error .configuration
    else if scratchSize key ≤ (key[4]).toNat then .error .bounds
    else .ok
      { out := decryptBytes key cipher
        res0 := some (BitVec.ofNat 32 l)
        res1 := some (seq.setWidth 32) }

/-- NPC.ENC on a state (R202): NotInitialised while NKVALID is 0. -/
def cmdNpcEnc (s : State) : State :=
  match s.nkey with
  | none => s.raiseError .notInitialised
  | some key => s.finish (encryptPacket key s.seqNumber s.data)

/-- NPC.DEC on a state (R206): NotInitialised while NKVALID is 0, before the marker is looked at. -/
def cmdNpcDec (s : State) : State :=
  match s.nkey with
  | none => s.raiseError .notInitialised
  | some key => s.finish (decryptPacket key s.data)

/-- The meaning of NPC.ENC (R202). -/
def execNpcEnc (s : State) : Host.Outcome State Fault Refusal := .next (cmdNpcEnc s)

/-- The meaning of NPC.DEC (R206). -/
def execNpcDec (s : State) : Host.Outcome State Fault Refusal := .next (cmdNpcDec s)

end Sys2Proof.Machine
end

