-- ==== Sys2Proof/Machine/Sys.lean ====
section
/-! DEFINITION. The system commands SYS.NOP (R230) and SYS.CLRERR (R231). -/

namespace Sys2Proof.Machine

open Sys2Proof

/-- SYS.NOP on a state (R230): only the common effects of a launch. -/
def cmdSysNop (s : State) : State := s.succeed { out := [] }

/-- SYS.CLRERR on a state (R231): as SYS.NOP, and STATUS[15:8] becomes 0. -/
def cmdSysClrerr (s : State) : State := s.clearSticky.succeed { out := [] }

/-- The meaning of SYS.NOP (R230). -/
def execSysNop (s : State) : Host.Outcome State Fault Refusal := .next (cmdSysNop s)

/-- The meaning of SYS.CLRERR (R231). -/
def execSysClrerr (s : State) : Host.Outcome State Fault Refusal := .next (cmdSysClrerr s)

end Sys2Proof.Machine
end

