-- ==== Sys2Proof/Machine/Dispatch.lean ====
section
/-! DEFINITION. The meaning of each command of R82, one arm per constructor. -/

namespace Sys2Proof.Machine

open Sys2Proof

def exec (i : Instr) (s : State) : Host.Outcome State Fault Refusal :=
  match i with
  | .sysNop => Sys2Proof.Machine.execSysNop s
  | .sysClrerr => Sys2Proof.Machine.execSysClrerr s
  | .akdCsum => Sys2Proof.Machine.execAkdCsum s
  | .akdHkey => Sys2Proof.Machine.execAkdHkey s
  | .akdCkey => Sys2Proof.Machine.execAkdCkey s
  | .aceInit ctx => Sys2Proof.Machine.execAceInit ctx s
  | .aceDec ctx => Sys2Proof.Machine.execAceDec ctx s
  | .nkdDerive => Sys2Proof.Machine.execNkdDerive s
  | .nkdLoad => Sys2Proof.Machine.execNkdLoad s
  | .npcEnc => Sys2Proof.Machine.execNpcEnc s
  | .npcDec => Sys2Proof.Machine.execNpcDec s

end Sys2Proof.Machine
end

