-- ==== Sys2Proof/Machine/Launch.lean ====
section
/-! DEFINITION. The launch of a command (R39, R92) and every host event (R232, R270). -/

namespace Sys2Proof.Machine

open Sys2Proof

/-- A write of w to CMD (R39, R92 step 3): the output queue is emptied, the word is decoded, and the command runs to its
end. An illegal word raises IllegalCommand (R86, R244). -/
def launch (w : Word) (s : State) : Host.Outcome State Fault Refusal :=
  match decode w with
  | .ok i => exec i s.beginLaunch
  | .error _ => .next (s.beginLaunch.raiseError .illegalCommand)

/-- One host event (R232, R270). A read leaves the value it returns in `rdata`; any other event returns no value (log 2). -/
def perform (e : HostEvent) (s : State) : Host.Outcome State Fault Refusal :=
  match e with
  | .write 0 v => launch v { s with rdata := none }
  | .write r v => .next (State.writeReg r v { s with rdata := none })
  | .read r => .next { (s.readReg r).2 with rdata := some (s.readReg r).1 }
  | .reset => .next s.resetEvent

/-- Store a command word where the next step takes its command from: a write of it to CMD becomes the next host event
(R39; log 3). Bits of `w` at or above `nbits` are 0. -/
def State.placeCommand (s : State) (nbits w : Nat) : State :=
  { s with pending := .write 0 (BitVec.ofNat 32 (w % 2 ^ nbits)) :: s.pending }

end Sys2Proof.Machine
end

