-- ==== Sys2Proof/Machine/Step.lean ====
section
/-! DEFINITION. One step of the machine: the next host event, if there is one (R11, R71, R251; log 1). -/

namespace Sys2Proof.Machine

open Sys2Proof

/-- One step: the oldest pending host event is taken off the list and performed. With none pending nothing happens, since
nothing happens in TWC but as the effect of a host access (R251). -/
def step (s : State) : Host.Outcome State Fault Refusal :=
  match s.pending with
  | [] => .next s
  | e :: rest => perform e { s with pending := rest }

/-- The command word `w` as the next command the machine runs (log 3). -/
def State.withFetchWord (s : State) (nbits w : Nat) : State := s.placeCommand nbits w

end Sys2Proof.Machine
end

