-- ==== Sys2Proof/Machine/Assembler.lean ====
section
/-! DEFINITION. Assembler lines (R89): a command with its operands, the host accesses it stands for (R87, R92), and its
text. There are no pseudo-commands (R90). -/

namespace Sys2Proof

/-- The mnemonics of R82. -/
def Instr.mnemonic : Instr → String
  | .sysNop => "SYS.NOP"
  | .sysClrerr => "SYS.CLRERR"
  | .akdCsum => "AKD.CSUM"
  | .akdHkey => "AKD.HKEY"
  | .akdCkey => "AKD.CKEY"
  | .aceInit _ => "ACE.INIT"
  | .aceDec _ => "ACE.DEC"
  | .nkdDerive => "NKD.DERIVE"
  | .nkdLoad => "NKD.LOAD"
  | .npcEnc => "NPC.ENC"
  | .npcDec => "NPC.DEC"

end Sys2Proof

namespace Sys2Proof.Machine

open Sys2Proof

/-- One line of R89: the command with its context, `arg0=` if written, and the data. -/
structure Line where
  instr : Instr
  arg0 : Option Word
  data : List Byte
  deriving DecidableEq, Repr

/-- The accesses of R92 steps 1 to 3: ARG0 if the line gives it (R87), the operand bytes to DIN, first byte first, the
command word to CMD. -/
def Line.events (l : Line) : List HostEvent :=
  (match l.arg0 with
    | none => []
    | some a => [HostEvent.write 1 a])
  ++ l.data.map (fun b => HostEvent.write 6 (b.setWidth 32))
  ++ [HostEvent.write 0 (encode l.instr)]

/-- A byte as two hexadecimal digits, as in the byte lists of R89. -/
def hexByte (b : Byte) : String :=
  String.ofList [(Nat.digitChar (b.toNat / 16)).toUpper, (Nat.digitChar (b.toNat % 16)).toUpper]

/-- The text of a line (R89), its data as a hexadecimal byte list and its numbers decimal (log 18). -/
def Line.text (l : Line) : String :=
  let operands :=
    (if l.instr.takesCtx then ["c" ++ toString l.instr.ctx.toNat] else [])
    ++ (match l.arg0 with
        | none => []
        | some a => ["arg0=" ++ toString a.toNat])
    ++ (if l.data = [] then [] else ["[" ++ " ".intercalate (l.data.map hexByte) ++ "]"])
  if operands = [] then l.instr.mnemonic
  else l.instr.mnemonic ++ " " ++ ", ".intercalate operands

end Sys2Proof.Machine
end

