-- ==== Sys2Proof/Machine/Command.lean ====
section
/-! DEFINITION. The total function of R11, `exec : Config -> State -> Command -> State x Result`, for any parameters: the
same commands as `exec`, which runs them with the hardware's own. The command's arg0 and data are in the state it is
given (R81), its result in the state it answers. Host programs and tests with known tables are written over it. -/

namespace Sys2Proof.Machine

open Sys2Proof

/-- One command with the parameters p (R11, R81). -/
def runWith (p : Config.Params) (i : Instr) (s : State) : State :=
  match i with
  | .sysNop => cmdSysNop s
  | .sysClrerr => cmdSysClrerr s
  | .akdCsum => cmdAkdCsum s
  | .akdHkey => cmdAkdHkey s
  | .akdCkey => cmdAkdCkey s
  | .aceInit ctx => cmdAceInit p ctx s
  | .aceDec ctx => cmdAceDec p ctx s
  | .nkdDerive => cmdNkdDerive p s
  | .nkdLoad => cmdNkdLoad s
  | .npcEnc => cmdNpcEnc s
  | .npcDec => cmdNpcDec s

/-- The launch of R92 with the parameters p. -/
def launchWith (p : Config.Params) (w : Word) (s : State) : State :=
  match decode w with
  | .ok i => runWith p i s.beginLaunch
  | .error _ => s.beginLaunch.raiseError .illegalCommand

/-- One host event with the parameters p (R232, R270). -/
def performWith (p : Config.Params) (e : HostEvent) (s : State) : State :=
  match e with
  | .write 0 v => launchWith p v { s with rdata := none }
  | .write r v => State.writeReg r v { s with rdata := none }
  | .read r => { (s.readReg r).2 with rdata := some (s.readReg r).1 }
  | .reset => s.resetEvent

/-- A sequence of host events, in the order the host issues them (R71). -/
def drive (p : Config.Params) (es : List HostEvent) (s : State) : State := es.foldl (fun s e => performWith p e s) s

end Sys2Proof.Machine
end

