-- ==== Sys2Proof/Machine/Archive.lean ====
section
/-! DEFINITION. The archive container sequence (`42_archive_container_host_sequence.md`): the host program that reads an
archive by issuing commands to TWC. It is not hardware (R5, R160); every access it makes is one of R232 (log 15). -/

namespace Sys2Proof.Machine

open Sys2Proof

/-- How a host program that fails ends: with one of the errors of R240, reported by TWC or raised by the host itself
(R250), or with the host's own error for a set OVF, which has no code in R240 (R280). -/
inductive HostError where
  /-- an error with a code of R240: STATUS.ERR after a command, or the host's own IntegrityError, TruncationError or
  BoundsError (R162, R164, R167, R169) -/
  | code (e : ErrCode)
  /-- STATUS.OVF is set after a command: an operand byte was dropped (R280) -/
  | overflow
  deriving DecidableEq, Repr

/-- A host program over the machine: it ends with a value or with one error (R160), in either case leaving TWC in the
state it reached (R170). -/
abbrev Session (α : Type) := State → Except HostError α × State

/-- Do one thing, then, unless it ended in an error, the next ("on failure, abort", R160, R164). -/
def Session.andThen {α β : Type} (m : Session α) (f : α → Session β) : Session β := fun s =>
  match m s with
  | (.ok a, s') => f a s'
  | (.error e, s') => (.error e, s')

/-- End with a value, with no access to TWC. -/
def Session.give {α : Type} (a : α) : Session α := fun s => (.ok a, s)

/-- End with an error of the host's own, with no further command (R164, R250). -/
def Session.fail {α : Type} (e : HostError) : Session α := fun s => (.error e, s)

/-- Pop DOUT n times (R92 step 4). -/
def drainDout (p : Config.Params) : Nat → State → List Byte × State
  | 0, s => ([], s)
  | n + 1, s =>
    let s' := performWith p (.read 7) s
    let r := drainDout p n s'
    (((s'.rdata.getD 0#32).extractLsb' 0 8) :: r.1, r.2)

/-- One command from the host's side (R92): the accesses of the line, STATUS looked at, then DOUT popped DOUTCNT times.
The host writes no operand longer than BUFCAP, and takes a set OVF for an error of its own, so no command answers on a
shortened operand (R280, D6). DESIGN CHOICE (log 19): the error of an over-long operand is the one D48 gives for a name, and
OVF is looked at before ERR, whatever access set it. A nonzero ERR ends the sequence (log 15). -/
def issue (p : Config.Params) (i : Instr) (arg0 : Option Word) (data : List Byte) : Session (List Byte) := fun s =>
  if Config.bufcap < data.length then (.error (.code .bounds), s)
  else
    let s1 := drive p (Line.events { instr := i, arg0 := arg0, data := data }) s
    if s1.ovf = true then (.error .overflow, s1)
    else if s1.err = .ok then
      let r := drainDout p s1.dout.length s1
      (.ok r.1, r.2)
    else (.error (.code s1.err), s1)

/-- Read a control register without changing TWC (RES0 to RES2, R43, R92 step 4). -/
def readResult (p : Config.Params) (r : Nat) : Session Word := fun s =>
  let s' := performWith p (.read r) s
  (.ok (s'.rdata.getD 0#32), s')

/-- `file[pos : pos + n]` (R16). -/
def slice (file : List Byte) (pos n : Nat) : List Byte := (file.drop pos).take n

/-- `u32(b)`: LE of a 4-byte string (R163). -/
def u32 (b : List Byte) : Word := BitVec.ofNat 32 (le b)

/-- `take(k)` of R167 and R169: `file[pos : pos + k]`, or TruncationError. -/
def takeFile (file : List Byte) (pos k : Nat) : Except ErrCode (List Byte) :=
  if file.length < pos + k then .error .truncation else .ok (slice file pos k)

/-- The header triple of R163. -/
structure Header where
  w1 : Word
  ver : Byte
  w2 : Word
  deriving DecidableEq, Repr

/-- The integrity relation of R164, `w1 = (w2 + ver) mod 2^32`, the version byte unsigned. -/
def Header.intact (h : Header) : Bool := decide (h.w1 = h.w2 + h.ver.setWidth 32)

/-- One decrypted entry (R167, labels of C3). -/
structure Entry where
  name : List Byte
  unk1 : Word
  cflag : Word
  unk2 : Word
  unk3 : Word
  unk4 : Word
  fkey : List Byte
  deriving DecidableEq, Repr

/-- One field of the entry table: `ACE.DEC cC, take(k)` (R167), truncated files refused first (R169). -/
def readField (p : Config.Params) (cC : CtxField) (file : List Byte) (pos k : Nat) : Session (List Byte) :=
  match takeFile file pos k with
  | .error e => Session.fail (.code e)
  | .ok field => issue p (.aceDec cC) none field

/-- One entry of R167 at `pos`, with the position after it. A name longer than DIN holds is refused with BoundsError
(R167, D48; before the truncation check, log 15). -/
def readEntry (p : Config.Params) (cC : CtxField) (file : List Byte) (pos : Nat) : Session (Entry × Nat) :=
  (readField p cC file pos 4).andThen fun nw =>
  let nameLen := 2 * (u32 nw).toNat
  if Config.bufcap < nameLen then Session.fail (.code .bounds)
  else
    (readField p cC file (pos + 4) nameLen).andThen fun name =>
    (readField p cC file (pos + 4 + nameLen) 4).andThen fun unk1 =>
    (readField p cC file (pos + 8 + nameLen) 4).andThen fun cflag =>
    (readField p cC file (pos + 12 + nameLen) 4).andThen fun unk2 =>
    (readField p cC file (pos + 16 + nameLen) 4).andThen fun unk3 =>
    (readField p cC file (pos + 20 + nameLen) 4).andThen fun unk4 =>
    (readField p cC file (pos + 24 + nameLen) 16).andThen fun fkey =>
    Session.give
      ({ name := name, unk1 := u32 unk1, cflag := u32 cflag, unk2 := u32 unk2, unk3 := u32 unk3, unk4 := u32 unk4,
         fkey := fkey }, pos + 40 + nameLen)

/-- `count` entries in strict order on one content context (R167); no partial result (R160, R169). -/
def readEntries (p : Config.Params) (cC : CtxField) (file : List Byte) : Nat → Nat → Session (List Entry)
  | 0, _ => Session.give []
  | n + 1, pos =>
    (readEntry p cC file pos).andThen fun e =>
    (readEntries p cC file n e.2).andThen fun rest =>
    Session.give (e.1 :: rest)

/-- The header of R163: the header key, one ACE.INIT of the header context, and three decrypts of 4, 1 and 4 bytes. -/
def readHeader (p : Config.Params) (cH : CtxField) (combined file : List Byte) (offset1 : Nat) : Session Header :=
  (issue p .akdHkey none combined).andThen fun hkey =>
  (issue p (.aceInit cH) none hkey).andThen fun _ =>
  (issue p (.aceDec cH) none (slice file offset1 4)).andThen fun d1 =>
  (issue p (.aceDec cH) none (slice file (offset1 + 4) 1)).andThen fun v =>
  (issue p (.aceDec cH) none (slice file (offset1 + 5) 4)).andThen fun d2 =>
  Session.give { w1 := u32 d1, ver := byteAt v 0, w2 := u32 d2 }

/-- The content cipher and the entry table (R165, R166, R167): the content key with seed offset1 + seed2, one ACE.INIT of
the content context, then the declared number of entries from offset1 + seed2 on. -/
def readTable (p : Config.Params) (cC : CtxField) (combined file : List Byte) (offset1 seed2 : Word) (count : Nat) :
    Session (List Entry) :=
  (issue p .akdCkey (some (offset1 + seed2)) combined).andThen fun ckey =>
  (issue p (.aceInit cC) none ckey).andThen fun _ =>
  readEntries p cC file count (offset1.toNat + seed2.toNat)

/-- The whole sequence (R160 to R169) with header context cH and content context cC: `combined` is the filename then the
secret (R161); BoundsError when the header lies past the end of the file (R162); IntegrityError, and no further command,
when the header is not intact (R164). A filename or `combined` longer than BUFCAP is refused by `issue` (R280, log 19). -/
def readArchive (p : Config.Params) (secret : List Byte) (cH cC : CtxField) (filename file : List Byte) :
    Session (List Entry) :=
  (issue p .akdCsum none filename).andThen fun _ =>
  (readResult p 3).andThen fun offset1 =>
  (readResult p 4).andThen fun seed2 =>
  if file.length < offset1.toNat + 9 then Session.fail (.code .bounds)
  else
    (readHeader p cH (filename ++ secret) file offset1.toNat).andThen fun h =>
    if h.intact then readTable p cC (filename ++ secret) file offset1 seed2 h.w2.toNat else Session.fail (.code .integrity)

end Sys2Proof.Machine
end

