-- ==== Sys2Proof/Safety.lean ====
section
/-! DEFINITION. The terms claims are made in: the invariant of the machine, the keystream still to come of a context, and
what of a state a unit may touch. -/

namespace Sys2Proof

/-- The two commands of unit ACE (R82), the only ones that read or write a context (R27). -/
def Instr.usesContext : Instr → Bool
  | .sysNop => false
  | .sysClrerr => false
  | .akdCsum => false
  | .akdHkey => false
  | .akdCkey => false
  | .aceInit _ => true
  | .aceDec _ => true
  | .nkdDerive => false
  | .nkdLoad => false
  | .npcEnc => false
  | .npcDec => false

/-- The commands that read or write NKEY (R33, R60). -/
def Instr.usesNetworkKey : Instr → Bool
  | .sysNop => false
  | .sysClrerr => false
  | .akdCsum => false
  | .akdHkey => false
  | .akdCkey => false
  | .aceInit _ => false
  | .aceDec _ => false
  | .nkdDerive => true
  | .nkdLoad => true
  | .npcEnc => true
  | .npcDec => true

/-- The commands that write a result register when they succeed (R43). -/
def Instr.writesResults : Instr → Bool
  | .sysNop => false
  | .sysClrerr => false
  | .akdCsum => true
  | .akdHkey => false
  | .akdCkey => false
  | .aceInit _ => false
  | .aceDec _ => false
  | .nkdDerive => true
  | .nkdLoad => false
  | .npcEnc => true
  | .npcDec => true

end Sys2Proof

namespace Sys2Proof.Machine

open Sys2Proof

/-- What the rules promise of a context between two commands: KBUF holds 0 to 3 bytes (R25), and none before the first
block (R122). -/
def Ctx.Inv (k : Ctx) : Prop := k.kbuf.length ≤ 3 ∧ (k.block = none → k.kbuf = [])

/-- What the rules promise of the machine between two host events: the queues are within their capacity (R41), ERR is a
code TWC raises (R240, R250), and every context keeps its promise. -/
structure State.Inv (s : State) : Prop where
  din_cap : s.din.length ≤ Config.bufcap
  dout_cap : s.dout.length ≤ Config.bufcap
  err_own : s.err ≠ .integrity ∧ s.err ≠ .truncation
  ctxs : ∀ c k, s.ctxAt c = some k → k.Inv

/-- The keystream bytes of the next n blocks from these registers on (R129): each word least significant byte first. -/
def keystream (rom : Config.Rom) : Nat → Core → List Byte
  | 0, _ => []
  | n + 1, k =>
    (regenerateBlock rom k).2.toList.flatMap wordBytes ++ keystream rom n (regenerateBlock rom k).1

/-- The bytes of the words of the current block from the cursor on (R24, R129). -/
def Ctx.blockBytes (k : Ctx) : List Byte :=
  match k.block with
  | none => []
  | some b => (b.ks.toList.drop b.cur.val).flatMap wordBytes

/-- The keystream bytes a context will yield next, n further blocks included: KBUF, then the words of the current block
from the cursor on, then the blocks to come (R129, R47). -/
def Ctx.upcoming (rom : Config.Rom) (n : Nat) (k : Ctx) : List Byte :=
  k.kbuf ++ k.blockBytes ++ keystream rom n k.core

/-- Two states with the same host's side: what no command touches (R40; log 1, log 2, log 11). -/
def SameHostSide (s t : State) : Prop :=
  t.arg0 = s.arg0 ∧ t.cmdIndex = s.cmdIndex ∧ t.pending = s.pending ∧ t.rdata = s.rdata

/-- Two states with the same OVF and sticky error bits (R42). -/
def SameSticky (s t : State) : Prop :=
  t.ovf = s.ovf ∧ t.sCfg = s.sCfg ∧ t.sBnd = s.sBnd ∧ t.sIll = s.sIll ∧ t.sNinit = s.sNinit

/-- Two states with the same result registers (R43). -/
def SameResults (s t : State) : Prop := t.res0 = s.res0 ∧ t.res1 = s.res1 ∧ t.res2 = s.res2

/-- The legal command words of R80, R82 and R83, with NCTX = 2. -/
def legalWords : List Word :=
  [0x00000000#32, 0x00000001#32, 0x00000010#32, 0x00000011#32, 0x00000012#32, 0x00000020#32, 0x00000120#32,
   0x00000021#32, 0x00000121#32, 0x00000030#32, 0x00000031#32, 0x00000032#32, 0x00000033#32]

/-- The outcome R248 gives NPC.ENC: the first check that fails, in the order of the rule. -/
def npcEncOutcome (s : State) : ErrCode :=
  match s.nkey with
  | none => .notInitialised
  | some key =>
    if (key[0]).toNat = 0 then .configuration
    else if 65534 < s.din.length then .bounds
    else .ok

/-- The outcome R248 gives NPC.DEC: the first check that fails, in the order of the rule. -/
def npcDecOutcome (s : State) : ErrCode :=
  match s.nkey with
  | none => .notInitialised
  | some key =>
    if s.din.head? ≠ some 0xAA#8 then .formatMismatch
    else if s.din.length < 5 then .bounds
    else if 256 * (byteAt s.din 1).toNat + (byteAt s.din 2).toNat = 0 then .bounds
    else if s.din.length + 1 < 5 + (256 * (byteAt s.din 1).toNat + (byteAt s.din 2).toNat) then .bounds
    else if (key[0]).toNat = 0 then .configuration
    else if 16 * (((key[0]).toNat + 30) / 16) ≤ (key[4]).toNat then .bounds
    else .ok

/-- The outcome R248 gives each command: the first error that applies, or success. -/
def expectedOutcome (p : Config.Params) (i : Instr) (s : State) : ErrCode :=
  match i with
  | .sysNop => .ok
  | .sysClrerr => .ok
  | .akdCsum => .ok
  | .akdHkey => if s.din = [] then .configuration else .ok
  | .akdCkey => if s.din = [] then .configuration else .ok
  | .aceInit c =>
    if Config.nctx ≤ c.toNat then .illegalCommand else if s.din.length ≠ 16 then .configuration else .ok
  | .aceDec c =>
    if Config.nctx ≤ c.toNat then .illegalCommand else if s.valid c.toNat = false then .notInitialised else .ok
  | .nkdDerive =>
    if (p.nkfields s.arg0).2.val = 0 then .configuration
    else if s.din.length < (p.nkfields s.arg0).1.val + (p.nkfields s.arg0).2.val then .bounds
    else .ok
  | .nkdLoad => if s.din.length ≠ 268 then .configuration else .ok
  | .npcEnc => npcEncOutcome s
  | .npcDec => npcDecOutcome s

/-- The byte-serial subtraction of R132: a borrow from byte to byte, the final one dropped. -/
def serialSubtract : Nat → List Byte → List Byte → List Byte
  | borrow, d :: ds, k :: ks =>
    let diff : Int := (d.toNat : Int) - (k.toNat : Int) - (borrow : Int)
    BitVec.ofInt 8 diff :: serialSubtract (if diff < 0 then 1 else 0) ds ks
  | _, [], _ => []
  | _, _ :: _, [] => []

/-- The sum of a byte string's values (R102). -/
def byteSum (d : List Byte) : Nat := (d.map BitVec.toNat).sum

/-- The number of keystream words an ACE.DEC of length L draws from this context (R130). -/
def Ctx.wordsDrawn (k : Ctx) (l : Nat) : Nat := (l - k.kbuf.length + 3) / 4

/-- The number of blocks an ACE.DEC of length L regenerates from this context (R130). -/
def Ctx.blocksDrawn (k : Ctx) (l : Nat) : Nat :=
  if k.wordsDrawn l = 0 then 0 else (k.cur + k.wordsDrawn l + 15) / 16 - 1

/-- A state from which the host can read a field of the entry table: nothing left in the input queue, no byte ever dropped
from it (R280), and context c holds the content k (R166). -/
def State.ReadyFor (s : State) (c : CtxField) (k : Ctx) : Prop :=
  s.din = [] ∧ s.ovf = false ∧ c.toNat < Config.nctx ∧ s.ctxAt c = some k

/-- Several operands decrypted one after another on one context (R136, R167): the plaintexts, and the context after. -/
def decryptFields (rom : Config.Rom) : List (List Byte) → Ctx → List (List Byte) × Ctx
  | [], k => ([], k)
  | d :: rest, k =>
    ((decrypt rom d k).1 :: (decryptFields rom rest (decrypt rom d k).2).1,
      (decryptFields rom rest (decrypt rom d k).2).2)

/-- The ciphertext of the eight fields of an entry at `pos` whose name has n characters, in the order of R168. -/
def entryFields (file : List Byte) (pos n : Nat) : List (List Byte) :=
  [slice file pos 4, slice file (pos + 4) (2 * n), slice file (pos + 4 + 2 * n) 4, slice file (pos + 8 + 2 * n) 4,
   slice file (pos + 12 + 2 * n) 4, slice file (pos + 16 + 2 * n) 4, slice file (pos + 20 + 2 * n) 4,
   slice file (pos + 24 + 2 * n) 16]

/-- The number of characters the first field of an entry at `pos` gives for its name (R167). -/
def nameChars (rom : Config.Rom) (file : List Byte) (pos : Nat) (k : Ctx) : Nat :=
  (u32 (decrypt rom (slice file pos 4) k).1).toNat

end Sys2Proof.Machine
end

