-- ==== Sys2Proof/Certificates/Slice0/Obligations.lean ====
section
/-! DEFINITION. The statements for the provers. Each says in its docstring which rules of spec/ it rests on; "the model's
choice" with a log number marks what is not a rule. -/

open Sys2Proof Sys2Proof.Machine

/-! ### command words and the launch -/

/-- R80, R82, R83, R86, R87: a word decodes to a command exactly when it is that command's encoding. That a context number
out of range is decoded and refused by the command is the model's choice (log 9). -/
def Obligations.DecodeAcceptsExactlyTheEncodings : Prop :=
  ∀ (w : Word) (i : Instr), decode w = .ok i ↔ w = encode i

/-- R82, R89: a few words written out from the opcode map. -/
def Obligations.SpecWordsDecode : Prop :=
  decode 0x00000000#32 = .ok .sysNop ∧ decode 0x00000010#32 = .ok .akdCsum ∧ decode 0x00000120#32 = .ok (.aceInit 1#4) ∧
  decode 0x00000121#32 = .ok (.aceDec 1#4) ∧ decode 0x00000031#32 = .ok .nkdLoad ∧
  decode 0x00000033#32 = .ok .npcDec ∧ decode 0x00001020#32 = .error .reservedBits ∧
  decode 0x00000099#32 = .error .unknownOpcode ∧ decode 0x00000110#32 = .error .ctxNotZero

/-- R83, R86, R244: a write to CMD of any word but the thirteen legal ones raises IllegalCommand and does nothing else. -/
def Obligations.IllegalWordsRaiseIllegalCommand : Prop :=
  ∀ (s : State) (w : Word) (rest : List HostEvent), s.pending = .write 0 w :: rest → w ∉ legalWords →
    step s = .next { s with
      pending := rest, rdata := none, cmdIndex := s.cmdIndex + 1, dout := [], err := .illegalCommand, sIll := true,
      din := [] }

/-- R39, R92: when the next host event writes a word that decodes to `i` to CMD, the step is `exec i` on the state in which
the output queue is empty; the command index is one more (R36). The event list and `rdata` are the model's (log 1, log 2). -/
def Obligations.StepRunsTheDecodedCommand : Prop :=
  ∀ (s : State) (w : Word) (rest : List HostEvent) (i : Instr), s.pending = .write 0 w :: rest → decode w = .ok i →
    step s = exec i { s with pending := rest, rdata := none, dout := [], cmdIndex := s.cmdIndex + 1 }

/-- R92, R87: the host accesses of an assembler line, issued with an empty input queue, run the line's command on the
line's operands. -/
def Obligations.LineAccessesRunTheCommand : Prop :=
  ∀ (p : Config.Params) (l : Line) (s : State), s.din = [] → l.data.length ≤ Config.bufcap →
    drive p l.events s
      = runWith p l.instr { s with
          arg0 := l.arg0.getD s.arg0, din := l.data, dout := [], rdata := none, cmdIndex := s.cmdIndex + 1 }

/-! ### outcomes, errors and frames of all commands -/

/-- R241 to R245, R248, R259: every command completes, and its ERR is the first error that applies in the order of R248. -/
def Obligations.EveryCommandReportsTheFirstError : Prop :=
  ∀ (i : Instr) (s : State), ∃ t, exec i s = .next t ∧ t.err = expectedOutcome Config.hw i s

/-- R246: a command that ends with a nonzero ERR changes ERR, the sticky bit of a fatal code, and the two queues, which it
leaves empty, and nothing else. The second part says the same of a whole launch, an illegal word included; the command index
advances as R36 says of every command, successful or not. -/
def Obligations.FailedCommandChangesNothingElse : Prop :=
  (∀ (i : Instr) (s t : State), exec i s = .next t → t.err ≠ .ok →
    t = { s with
      dout := [], din := [], err := t.err
      sCfg := s.sCfg || decide (t.err = .configuration)
      sBnd := s.sBnd || decide (t.err = .bounds)
      sIll := s.sIll || decide (t.err = .illegalCommand)
      sNinit := s.sNinit || decide (t.err = .notInitialised) }) ∧
  (∀ (w : Word) (s t : State), launch w s = .next t → t.err ≠ .ok →
    t = { s with
      dout := [], din := [], err := t.err, cmdIndex := s.cmdIndex + 1
      sCfg := s.sCfg || decide (t.err = .configuration)
      sBnd := s.sBnd || decide (t.err = .bounds)
      sIll := s.sIll || decide (t.err = .illegalCommand)
      sNinit := s.sNinit || decide (t.err = .notInitialised) })

/-- R27, R33, R40, R42, R43, R92: what every command leaves unchanged: ARG0, the contexts unless it is an ACE command, NKEY
unless it is an NKD command, the result registers unless its rule names them, OVF unless it is SYS.CLRERR. It always
empties the input queue. -/
def Obligations.CommandFrame : Prop :=
  ∀ (i : Instr) (s t : State), exec i s = .next t →
    SameHostSide s t ∧ t.din = [] ∧
    (i.usesContext = false → t.ctxs = s.ctxs) ∧
    (i ≠ .nkdDerive → i ≠ .nkdLoad → t.nkey = s.nkey) ∧
    (i.writesResults = false → SameResults s t) ∧
    (i = .npcEnc ∨ i = .npcDec ∨ i = .nkdDerive → t.res2 = s.res2) ∧
    (i ≠ .sysClrerr → t.ovf = s.ovf) ∧
    (i ≠ .sysClrerr → t.err = .ok → SameSticky s t)

/-- R7, R20, R60: a command that is not of unit ACE neither reads nor writes a context, an ACE command touches the context
it names alone, and only the NKD and NPC commands depend on NKEY. -/
def Obligations.UnitsShareNoCipherState : Prop :=
  (∀ (i : Instr) (s t : State) (v : Vector (Option Ctx) Config.nctx), exec i s = .next t → i.usesContext = false →
    exec i { s with ctxs := v } = .next { t with ctxs := v }) ∧
  (∀ (i : Instr) (s t : State) (k : Option (Vector Byte 268)), exec i s = .next t → i.usesNetworkKey = false →
    exec i { s with nkey := k } = .next { t with nkey := k }) ∧
  (∀ (c d : CtxField) (hd : d.toNat < Config.nctx) (s t : State) (v : Option Ctx), c ≠ d →
    (exec (.aceInit c) s = .next t →
      exec (.aceInit c) { s with ctxs := s.ctxs.set d.toNat v } = .next { t with ctxs := t.ctxs.set d.toNat v }) ∧
    (exec (.aceDec c) s = .next t →
      exec (.aceDec c) { s with ctxs := s.ctxs.set d.toNat v } = .next { t with ctxs := t.ctxs.set d.toNat v }))

/-! ### system commands -/

/-- R230: SYS.NOP clears ERR and empties both queues, and nothing else. -/
def Obligations.NopHasOnlyTheCommonEffects : Prop :=
  ∀ s : State, exec .sysNop s = .next { s with err := .ok, dout := [], din := [] }

/-- R231: SYS.CLRERR clears STATUS[15:8] and ERR: the STATUS a host then reads is the old one with bits 15:0 zero. The valid
bits stay. -/
def Obligations.ClrerrClearsTheStickyBits : Prop :=
  ∀ s : State, ∃ t, exec .sysClrerr s = .next t ∧ t.status = s.status &&& 0xFFFF0000#32 ∧
    t = { s with
      ovf := false, sCfg := false, sBnd := false, sIll := false, sNinit := false, err := .ok, dout := [], din := [] }

/-! ### archive key derivation -/

/-- R102: AKD.CSUM writes offset1, seed2 and the unreduced second sum, for every filename, the empty one included; with at
most BUFCAP bytes the sum is exact. -/
def Obligations.CsumWritesTheOffsets : Prop :=
  ∀ s : State,
    exec .akdCsum s = .next { s with
      err := .ok, dout := [], din := []
      res0 := BitVec.ofNat 32 (byteSum s.din % 312 + 30)
      res1 := BitVec.ofNat 32 (3 * byteSum s.din % 212 + 33)
      res2 := BitVec.ofNat 32 (3 * byteSum s.din) } ∧
    (s.din.length ≤ Config.bufcap → (BitVec.ofNat 32 (3 * byteSum s.din)).toNat = 3 * byteSum s.din)

/-- R104: AKD.HKEY on a nonempty string yields 16 bytes, byte i being i plus the byte at i mod n, modulo 256; on the empty
string it raises ConfigurationError. -/
def Obligations.HkeyCyclesTheString : Prop :=
  ∀ s : State,
    (s.din ≠ [] → ∃ t, exec .akdHkey s = .next t ∧
      t = { s with err := .ok, dout := t.dout, din := [] } ∧ t.dout.length = 16 ∧
      ∀ i < 16, ∀ b, s.din[i % s.din.length]? = some b → t.dout[i]? = some (BitVec.ofNat 8 i + b)) ∧
    (s.din = [] → exec .akdHkey s = .next { s with err := .configuration, sCfg := true, dout := [], din := [] })

/-- R106: AKD.CKEY on a nonempty string yields 16 bytes, byte i being i plus (i mod 3 + 2) times the byte at the index
congruent to arg0 - i modulo n, modulo 256; on the empty string it raises ConfigurationError. -/
def Obligations.CkeyCyclesBackward : Prop :=
  ∀ s : State,
    (s.din ≠ [] → ∃ t, exec .akdCkey s = .next t ∧
      t = { s with err := .ok, dout := t.dout, din := [] } ∧ t.dout.length = 16 ∧
      ∀ (i index : Nat) (b : Byte), i < 16 → s.din[index]? = some b →
        (s.din.length : Int) ∣ ((s.arg0.toNat : Int) - (i : Int)) - (index : Int) →
        t.dout[i]? = some (BitVec.ofNat 8 (i + (i % 3 + 2) * b.toNat))) ∧
    (s.din = [] → exec .akdCkey s = .next { s with err := .configuration, sCfg := true, dout := [], din := [] })

/-! ### archive cipher engine -/

/-- R120, R121: with a zero target and source F is the XOR of the first entries; every table is indexed by the byte its shift
discards, so F and SBOX split over the bytes of their operands. Which end of a word is byte 0 is not in the source: bits 7:0
is the spec's decision D21 (log 12, DEDUCED), and both clauses on split words rest on it. -/
def Obligations.PrimitivesSplitOverBytes : Prop :=
  (∀ rom : Config.Rom, feedback rom 0#32 0#32 [] = rom .multable 0#8 ^^^ rom .divtable 0#8) ∧
  (∀ (rom : Config.Rom) (b0 b1 b2 b3 : Byte),
    sbox rom (b3 ++ b2 ++ b1 ++ b0) = rom .t0 b0 ^^^ rom .t1 b1 ^^^ rom .t2 b2 ^^^ rom .t3 b3) ∧
  (∀ (rom : Config.Rom) (t3 s0 : Byte) (t u : BitVec 24) (e1 e2 : Word),
    feedback rom (t3 ++ t) (u ++ s0) [e1, e2]
      = (t ++ 0#8) ^^^ (0#8 ++ u) ^^^ rom .divtable s0 ^^^ rom .multable t3 ^^^ e1 ^^^ e2)

/-- R123: the key word of four bytes. With every byte below 0x80 it is the plain big-endian word; a byte of 0x80 or more in
position 1, 2 or 3 forces every bit above its own position to one. -/
def Obligations.KeyWordKeepsTheSignExtension : Prop :=
  ∀ b0 b1 b2 b3 : Byte,
    (b1.msb = false → b2.msb = false → b3.msb = false → keyWord b0 b1 b2 b3 = b0 ++ b1 ++ b2 ++ b3) ∧
    (b1.msb = true → b2.msb = false → b3.msb = false → keyWord b0 b1 b2 b3 = 0xFF#8 ++ b1 ++ b2 ++ b3) ∧
    (b2.msb = true → b3.msb = false → keyWord b0 b1 b2 b3 = 0xFFFF#16 ++ b2 ++ b3) ∧
    (b3.msb = true → keyWord b0 b1 b2 b3 = 0xFFFFFF#24 ++ b3)

/-- R124: the seeding pattern, in index order. -/
def Obligations.SeedingPattern : Prop :=
  ∀ (k : Vector Word 4) (j : Nat) (h : j < 4),
    (seedRegisters k[0] k[1] k[2] k[3])[j] = k[j] ∧ (seedRegisters k[0] k[1] k[2] k[3])[4 + j] = ~~~k[j] ∧
    (seedRegisters k[0] k[1] k[2] k[3])[8 + j] = k[j] ∧ (seedRegisters k[0] k[1] k[2] k[3])[12 + j] = ~~~k[j]

/-- R125, R126: the mixing pass is 32 steps, two times from register 15 down to register 0; each writes the visited register
in place and passes the accumulators on. The formula of the step is the spec's decision (log 12). -/
def Obligations.MixingPassFollowsTheSchedule : Prop :=
  ∀ (rom : Config.Rom) (k : Core), ∃ m : Nat → Core, m 0 = k ∧ m 32 = mixingPass rom k ∧
    ∀ n < 32, ∀ a : Fin 16, a.val = 15 - n % 16 →
      (m (n + 1)).a = (m n).b + (m n).x.get (a + 11) ∧
      (m (n + 1)).b = sbox rom (m n).a ∧
      (m (n + 1)).x.get a
        = feedback rom ((m n).x.get a) ((m n).x.get (a + 5))
            [(m n).x.get (a + 14), ((m n).a + (m n).x.get (a + 1)) ^^^ (m n).b] ∧
      ∀ b, b ≠ a → (m (n + 1)).x.get b = (m n).x.get b

/-- R127, R128: a regeneration visits registers 15 down to 0, writes each in place, and yields keystream word p from register
15 - p and the new accumulators. The formula of the step is the spec's decision (log 12). -/
def Obligations.RegenerateBlockFollowsTheSchedule : Prop :=
  ∀ (rom : Config.Rom) (k : Core), ∃ m : Nat → Core, m 0 = k ∧ m 16 = (regenerateBlock rom k).1 ∧
    ∀ p a : Fin 16, a.val = 15 - p.val →
      (m (p + 1)).a = (m p).b + (m p).x.get (a + 11) ∧
      (m (p + 1)).b = sbox rom (m p).a ∧
      (m (p + 1)).x.get a
        = feedback rom ((m p).x.get a) ((m p).x.get (a + 5)) [(m p).x.get (a + 14)] ∧
      (∀ b, b ≠ a → (m (p + 1)).x.get b = (m p).x.get b) ∧
      (regenerateBlock rom k).2.get p
        = ((m (p + 1)).a + (m (p + 1)).x.get a) ^^^ (m (p + 1)).b ^^^ (m (p + 1)).x.get (a + 15)

/-- R122, R20: ACE.INIT with a 16-byte key leaves the named context valid, with CUR 16, no keystream block, an empty KBUF and
registers that are the mixing pass of the seeded key, whatever the context held before; every other context is unchanged.
That KS then has no value is R23 as the model holds it (log 5). -/
def Obligations.AceInitBuildsAFreshContext : Prop :=
  ∀ (s : State) (c : CtxField), c.toNat < 2 → s.din.length = 16 →
    ∃ t k, exec (.aceInit c) s = .next t ∧ t = { s with ctxs := t.ctxs, err := .ok, dout := [], din := [] } ∧
      t.ctxAt c = some k ∧ k.cur = 16 ∧ k.ks = none ∧ k.kbuf = [] ∧
      k.core = mixingPass Config.hw.rom
        { x := seedRegisters (loadKeyWord s.din 0) (loadKeyWord s.din 1) (loadKeyWord s.din 2) (loadKeyWord s.din 3)
          a := 0#32, b := 0#32 } ∧
      ∀ d, d ≠ c → t.ctxAt d = s.ctxAt d

/-- R122, R241: ACE.INIT with any other key length raises ConfigurationError and leaves every context as it was; R83: with a
context number of NCTX or more both ACE commands raise IllegalCommand, before anything else is looked at. -/
def Obligations.AceCommandsRefuseBadOperands : Prop :=
  ∀ (s : State) (c : CtxField),
    (c.toNat < 2 → s.din.length ≠ 16 →
      exec (.aceInit c) s = .next { s with err := .configuration, sCfg := true, dout := [], din := [] }) ∧
    (2 ≤ c.toNat →
      exec (.aceInit c) s = .next { s with err := .illegalCommand, sIll := true, dout := [], din := [] } ∧
      exec (.aceDec c) s = .next { s with err := .illegalCommand, sIll := true, dout := [], din := [] })

/-- R131 with R20, R27, R129, R130: ACE.DEC on a valid context completes for every operand: the output is the little-endian
difference modulo 2^(8L) of the operand and the next L keystream bytes, the context has consumed exactly those L bytes, it has
regenerated the number of blocks of R130, and nothing else changes but the interface. How words reach KBUF, on which the count
of blocks rests, is the spec's decision D26 (log 12). -/
def Obligations.AceDecSubtractsTheNextKeystreamBytes : Prop :=
  ∀ (s : State) (c : CtxField) (k : Ctx), c.toNat < 2 → s.ctxAt c = some k →
    ∃ t k' n, exec (.aceDec c) s = .next t ∧ t = { s with ctxs := t.ctxs, err := .ok, dout := t.dout, din := [] } ∧
      (t.dout.length = s.din.length ∧
        (le t.dout : Int) = ((le s.din : Int) - le ((k.upcoming Config.hw.rom s.din.length).take s.din.length))
          % (2 ^ (8 * s.din.length) : Nat)) ∧
      t.ctxAt c = some k' ∧
      k'.upcoming Config.hw.rom n = (k.upcoming Config.hw.rom s.din.length).drop s.din.length ∧
      n + k.blocksDrawn s.din.length = s.din.length ∧
      ∀ d, d ≠ c → t.ctxAt d = s.ctxAt d

/-- R133, R245: an empty operand on a valid context yields an empty output and leaves the context unchanged in every
component; on a context that is not valid it raises NotInitialised. -/
def Obligations.AceDecOfNothing : Prop :=
  ∀ (s : State) (c : CtxField), c.toNat < 2 → s.din = [] →
    (∀ k, s.ctxAt c = some k → exec (.aceDec c) s = .next { s with err := .ok, dout := [], din := [] }) ∧
    (s.ctxAt c = none →
      exec (.aceDec c) s = .next { s with err := .notInitialised, sNinit := true, dout := [], din := [] })

/-- R129, R278: consuming two operands one after the other leaves a context exactly as consuming them joined does, whatever
their lengths: the keystream position depends on the number of bytes alone. That KBUF and CUR agree too rests on the spec's
decision D26 (log 12). -/
def Obligations.KeystreamConsumptionIsAdditive : Prop :=
  ∀ (rom : Config.Rom) (k : Ctx) (a b : List Byte),
    (decrypt rom b (decrypt rom a k).2).2 = (decrypt rom (a ++ b) k).2

/-- R132: the byte-serial form equals the integer form of R131. -/
def Obligations.SubtractionIsBorrowSerial : Prop :=
  ∀ c k : List Byte, c.length = k.length → subtractLE c k = serialSubtract 0 c k

/-- R135: with an all-zero keystream ACE.DEC returns its operand unchanged. -/
def Obligations.ZeroKeystreamReturnsTheCiphertext : Prop :=
  ∀ (s : State) (c : CtxField) (k : Ctx), c.toNat < 2 → s.ctxAt c = some k →
    (k.upcoming Config.hw.rom s.din.length).take s.din.length = List.replicate s.din.length 0#8 →
    ∃ t, exec (.aceDec c) s = .next t ∧ t.err = .ok ∧ t.dout = s.din

/-- R26, R34, R245: while a valid bit is 0 the command that needs it raises NotInitialised, whatever its operand. -/
def Obligations.UninitialisedUseIsRefused : Prop :=
  (∀ (s : State) (c : CtxField), c.toNat < 2 → s.valid c.toNat = false →
    exec (.aceDec c) s = .next { s with err := .notInitialised, sNinit := true, dout := [], din := [] }) ∧
  (∀ s : State, s.nkvalid = false →
    exec .npcEnc s = .next { s with err := .notInitialised, sNinit := true, dout := [], din := [] } ∧
    exec .npcDec s = .next { s with err := .notInitialised, sNinit := true, dout := [], din := [] })

/-! ### network key derivation -/

/-- R182, R184, R185: NKD.DERIVE completes on every state: ConfigurationError when the size field is 0, else BoundsError when
the slice ends past the blob, else the key is stored and returned and RES0, RES1 are offset and size. It is stated without
hypotheses, since the field function is open (log 6). -/
def Obligations.DeriveStoresAndReturnsTheKey : Prop :=
  ∀ (s : State) (offset size : Nat),
    offset = (Config.hw.nkfields s.arg0).1.val → size = (Config.hw.nkfields s.arg0).2.val →
    exec .nkdDerive s = .next (
      if size = 0 then { s with err := .configuration, sCfg := true, dout := [], din := [] }
      else if s.din.length < offset + size then { s with err := .bounds, sBnd := true, dout := [], din := [] }
      else { s with
        nkey := some (prependHeader Config.hw.nkhdr (ksa ((s.din.drop offset).take size)))
        dout := (prependHeader Config.hw.nkhdr (ksa ((s.din.drop offset).take size))).toList
        err := .ok, res0 := BitVec.ofNat 32 offset, res1 := BitVec.ofNat 32 size, din := [] })

/-- R182, R185, for any parameters: when the size field is not 0 and the slice lies in the blob, NKD.DERIVE stores and
returns the key and writes RES0 and RES1. (The hardware's own field function is open, log 6; `runWith p` is the command with
the parameters p, and `exec` is `runWith` with the hardware's.) -/
def Obligations.DeriveWithAnyParameters : Prop :=
  (∀ s : State, exec .nkdDerive s = .next (runWith Config.hw .nkdDerive s)) ∧
  ∀ (p : Config.Params) (s : State) (offset : Fin 65536) (size : Fin 16), p.nkfields s.arg0 = (offset, size) →
    size ≠ 0 → offset.val + size.val ≤ s.din.length →
    ∃ key : Vector Byte 268, key = prependHeader p.nkhdr (ksa ((s.din.drop offset.val).take size.val)) ∧
      runWith p .nkdDerive s = { s with
        nkey := some key, dout := key.toList, err := .ok, res0 := BitVec.ofNat 32 offset.val
        res1 := BitVec.ofNat 32 size.val, din := [] }

/-- R184: the derived key is the header, then the table, with byte 11 a copy of byte 12. -/
def Obligations.DerivedKeyLayout : Prop :=
  ∀ (hdr : Vector Byte 12) (table : Vector Byte 256),
    (∀ (i : Nat) (_ : i < 11), (prependHeader hdr table)[i] = hdr[i]) ∧
    (prependHeader hdr table)[11] = table[0] ∧
    (∀ (i : Nat) (_ : i < 256), (prependHeader hdr table)[12 + i] = table[i])

/-- R183: for every key slice, the table the KSA yields is a permutation of the 256 bytes. -/
def Obligations.KsaYieldsAPermutation : Prop :=
  ∀ k : List Byte, (ksa k).toList.Nodup ∧ ∀ b : Byte, b ∈ (ksa k).toList

/-- R183: the KSA starts from the identity table with j = 0 and makes 256 rounds; round i adds S[i] and the key byte at
i mod size to j and swaps S[i] and S[j]. The round is the RC4 key schedule by the spec's decision (log 13). -/
def Obligations.KsaFollowsTheRounds : Prop :=
  ∀ k : List Byte, k ≠ [] → ∃ (t : Nat → Vector Byte 256) (j : Nat → Byte),
    (∀ b : Byte, (t 0).get b.toFin = b) ∧ j 0 = 0#8 ∧ t 256 = ksa k ∧
    ∀ i : Byte, ∀ kb, k[i.toNat % k.length]? = some kb →
      j (i.toNat + 1) = j i.toNat + (t i.toNat).get i.toFin + kb ∧
      (t (i.toNat + 1)).get i.toFin = (t i.toNat).get (j (i.toNat + 1)).toFin ∧
      (t (i.toNat + 1)).get (j (i.toNat + 1)).toFin = (t i.toNat).get i.toFin ∧
      ∀ b : Byte, b ≠ i → b ≠ j (i.toNat + 1) → (t (i.toNat + 1)).get b.toFin = (t i.toNat).get b.toFin

/-- R186: NKD.LOAD stores 268 bytes as given, with no fix-up; any other length raises ConfigurationError and changes no key. -/
def Obligations.LoadStoresTheKeyAsGiven : Prop :=
  ∀ s : State,
    (s.din.length = 268 → ∃ key : Vector Byte 268, key.toList = s.din ∧
      exec .nkdLoad s = .next { s with nkey := some key, err := .ok, dout := [], din := [] }) ∧
    (s.din.length ≠ 268 →
      exec .nkdLoad s = .next { s with err := .configuration, sCfg := true, dout := [], din := [] })

/-! ### network packet cipher -/

/-- R202, R205: NPC.ENC with a stored key whose byte 0 is not 0 frames a payload of at most 65534 bytes: marker, big-endian
length field, sequence number, 0, and one ciphertext byte for each payload byte. -/
def Obligations.EncFramesTheCiphertext : Prop :=
  ∀ (s : State) (key : Vector Byte 268), s.nkey = some key → key[0] ≠ 0#8 → s.din.length ≤ 65534 →
    (encryptBytes key s.din).length = s.din.length ∧
    exec .npcEnc s = .next { s with
      err := .ok, din := []
      dout := [0xAA#8, BitVec.ofNat 8 ((s.din.length + 1) / 256), BitVec.ofNat 8 (s.din.length + 1), s.arg0.setWidth 8, 0#8]
        ++ encryptBytes key s.din
      res0 := BitVec.ofNat 32 (s.din.length + 1)
      res1 := BitVec.ofNat 32 (s.arg0.toNat % 256) }

/-- R203, R204: ciphertext byte i comes from NKEY[0] inner steps, the first one on NKEY[11] XORed with the payload bytes up to
i, at table positions 1 + 2 * NKEY[0] * i on, two at a time, modulo 256. Which byte is XORed and which added is the spec's
decision (log 13). -/
def Obligations.CiphertextByteClosedForm : Prop :=
  ∀ (key : Vector Byte 268) (payload : List Byte) (i : Nat), i < payload.length →
    (encryptBytes key payload)[i]? = some (
      (List.range (key[0]).toNat).foldl
        (fun v t =>
          tableByte key (BitVec.ofNat 8 (1 + 2 * ((key[0]).toNat * i + t)) + 1#8)
            + (tableByte key (BitVec.ofNat 8 (1 + 2 * ((key[0]).toNat * i + t))) ^^^ v))
        ((payload.take (i + 1)).foldl (· ^^^ ·) key[11]))

/-- R206, R207, R201: NPC.DEC with a stored key whose step counts are in range accepts a frame of marker, length field,
sequence number, any fifth byte, a payload of L - 1 bytes and any bytes after it. -/
def Obligations.DecAcceptsAWellFormedFrame : Prop :=
  ∀ (s : State) (key : Vector Byte 268) (hi lo seq reserved : Byte) (cipher trailing : List Byte),
    s.nkey = some key → key[0] ≠ 0#8 → (key[4]).toNat < 16 * (((key[0]).toNat + 30) / 16) →
    s.din = [0xAA#8, hi, lo, seq, reserved] ++ cipher ++ trailing →
    256 * hi.toNat + lo.toNat = cipher.length + 1 →
    (decryptBytes key cipher).length = cipher.length ∧
    exec .npcDec s = .next { s with
      err := .ok, din := [], dout := decryptBytes key cipher
      res0 := BitVec.ofNat 32 (cipher.length + 1), res1 := seq.setWidth 32 }

/-- R208, R209: for every key whose step counts NPC.DEC accepts, plaintext byte i comes from undoing steps with the key bytes
that R204 uses for byte i, then an XOR with NKEY[11] and every earlier plaintext byte. The steps undone are those at positions
NKEY[4] down to 0; the scratch entries from NKEY[0] on are never refilled and stay 0, and a step with them changes nothing,
so that they start at the smaller of NKEY[4] and NKEY[0] - 1. The refill and the loop's range are the spec's decision
(log 13). -/
def Obligations.PlaintextByteClosedForm : Prop :=
  ∀ (key : Vector Byte 268) (cipher : List Byte) (i : Nat) (c : Byte), key[0] ≠ 0#8 →
    (key[4]).toNat < 16 * (((key[0]).toNat + 30) / 16) → cipher[i]? = some c →
    (decryptBytes key cipher)[i]? = some (
      (List.range (min (key[4]).toNat ((key[0]).toNat - 1) + 1)).foldr
        (fun t v =>
          (v - tableByte key (BitVec.ofNat 8 (1 + 2 * ((key[0]).toNat * i + t)) + 1#8))
            ^^^ tableByte key (BitVec.ofNat 8 (1 + 2 * ((key[0]).toNat * i + t))))
        c
      ^^^ ((decryptBytes key cipher).take i).foldl (· ^^^ ·) key[11])

/-- R243: an operand that is empty or does not begin with the marker ends NPC.DEC with FormatMismatch, which sets no sticky
bit and writes no result register; no other command ends with it. -/
def Obligations.MissingMarkerIsNotAPacket : Prop :=
  (∀ s : State, s.nkvalid = true → s.din.head? ≠ some 0xAA#8 →
    exec .npcDec s = .next { s with err := .formatMismatch, dout := [], din := [] }) ∧
  (∀ (i : Instr) (s t : State), exec i s = .next t → t.err = .formatMismatch →
    i = .npcDec ∧ s.nkvalid = true ∧ s.din.head? ≠ some 0xAA#8)

/-- R210: when NKEY[4] is NKEY[0] - 1, NPC.DEC of what NPC.ENC put on the output queue returns the payload, the length field
and the sequence number. The inverse belongs to the spec's decisions D37, D42 and D43 (log 13). -/
def Obligations.DecInvertsEnc : Prop :=
  ∀ (s : State) (key : Vector Byte 268), s.nkey = some key → (key[4]).toNat + 1 = (key[0]).toNat →
    s.din.length ≤ 65534 →
    ∃ t u, exec .npcEnc s = .next t ∧ t.err = .ok ∧ exec .npcDec { t with din := t.dout } = .next u ∧ u.err = .ok ∧
      u.dout = s.din ∧ u.res0 = BitVec.ofNat 32 (s.din.length + 1) ∧ u.res1 = BitVec.ofNat 32 (s.arg0.toNat % 256)

/-- R211: after a successful NPC.DEC, NPC.ENC of its output with the sequence number it reported yields a frame with the same
first four bytes and 0 in byte 4, whatever the key. -/
def Obligations.ReframingReproducesTheHeader : Prop :=
  ∀ s t : State, exec .npcDec s = .next t → t.err = .ok →
    ∃ u, exec .npcEnc { t with arg0 := t.res1, din := t.dout } = .next u ∧ u.err = .ok ∧
      u.dout.take 4 = s.din.take 4 ∧ u.dout[4]? = some 0#8

/-! ### the host's side -/

/-- R38, R41, R44, R232: every host access but a launch: what it changes and what it returns. The event list and `rdata` are
the model's (log 1, log 2). -/
def Obligations.HostAccessTable : Prop :=
  ∀ (s : State) (rest : List HostEvent),
    (∀ v, s.pending = .write 1 v :: rest → step s = .next { s with pending := rest, rdata := none, arg0 := v }) ∧
    (∀ v, s.pending = .write 6 v :: rest → s.din.length < Config.bufcap →
      step s = .next { s with pending := rest, rdata := none, din := s.din ++ [v.setWidth 8] }) ∧
    (∀ v, s.pending = .write 6 v :: rest → Config.bufcap ≤ s.din.length →
      step s = .next { s with pending := rest, rdata := none, ovf := true }) ∧
    (∀ r v, s.pending = .write r v :: rest → r ≠ 0 → r ≠ 1 → r ≠ 6 →
      step s = .next { s with pending := rest, rdata := none }) ∧
    (∀ b q, s.pending = .read 7 :: rest → s.dout = b :: q →
      step s = .next { s with pending := rest, rdata := some (b.setWidth 32), dout := q }) ∧
    (s.pending = .read 7 :: rest → s.dout = [] → step s = .next { s with pending := rest, rdata := some 0#32 }) ∧
    (∀ r, s.pending = .read r :: rest → r ≠ 7 →
      step s = .next { s with
        pending := rest
        rdata := some (
          if r = 1 then s.arg0 else if r = 2 then s.status else if r = 3 then s.res0 else if r = 4 then s.res1
          else if r = 5 then s.res2 else if r = 8 then BitVec.ofNat 32 s.din.length
          else if r = 9 then BitVec.ofNat 32 s.dout.length else 0#32) }) ∧
    (s.pending = [] → step s = .next s)

/-- R42: the fields of STATUS. -/
def Obligations.StatusLayout : Prop :=
  ∀ s : State,
    s.status.extractLsb' 0 8 = s.err.code ∧ s.status.getLsbD 8 = s.ovf ∧ s.status.getLsbD 9 = s.sCfg ∧
    s.status.getLsbD 10 = false ∧ s.status.getLsbD 11 = s.sBnd ∧ s.status.getLsbD 12 = false ∧
    s.status.getLsbD 13 = false ∧ s.status.getLsbD 14 = s.sIll ∧ s.status.getLsbD 15 = s.sNinit ∧
    s.status.getLsbD 16 = s.nkvalid ∧ s.status.extractLsb' 17 7 = 0#7 ∧
    ∀ c < 8, s.status.getLsbD (24 + c) = s.valid c

/-- R48, R270, R271: the reset event takes TWC from any state to the reset state: no valid bit, every register 0, both queues
empty, no context and no network key. The command index and the event list are the model's and stay (log 10). -/
def Obligations.ResetClearsTheMachine : Prop :=
  (∀ (s : State) (rest : List HostEvent), s.pending = .reset :: rest →
    step s = .next { State.reset with pending := rest, cmdIndex := s.cmdIndex }) ∧
  (∀ c, State.reset.ctxAt c = none) ∧ (∀ c, State.reset.valid c = false) ∧ State.reset.nkey = none ∧
  State.reset.status = 0#32 ∧ State.reset.arg0 = 0#32 ∧ State.reset.res0 = 0#32 ∧ State.reset.res1 = 0#32 ∧
  State.reset.res2 = 0#32 ∧ State.reset.din = [] ∧ State.reset.dout = []

/-- R26, R34: a valid bit is set only by a successful ACE.INIT of that context, or by a successful NKD.DERIVE or NKD.LOAD, and
cleared only by reset. -/
def Obligations.ValidBitsAreSetOnce : Prop :=
  ∀ s t : State, step s = .next t → s.pending.head? ≠ some .reset →
    (∀ c, s.valid c = true → t.valid c = true) ∧ (s.nkvalid = true → t.nkvalid = true) ∧
    (∀ c : CtxField, s.valid c.toNat = false → t.valid c.toNat = true →
      s.pending.head? = some (.write 0 (encode (.aceInit c))) ∧ t.err = .ok) ∧
    (s.nkvalid = false → t.nkvalid = true →
      (s.pending.head? = some (.write 0 (encode .nkdDerive)) ∨ s.pending.head? = some (.write 0 (encode .nkdLoad))) ∧
      t.err = .ok)

/-- R42: only SYS.CLRERR and reset clear OVF or a sticky error bit. -/
def Obligations.StickyBitsAreSticky : Prop :=
  ∀ s t : State, step s = .next t → s.pending.head? ≠ some .reset →
    s.pending.head? ≠ some (.write 0 (encode .sysClrerr)) →
    (s.ovf = true → t.ovf = true) ∧ (s.sCfg = true → t.sCfg = true) ∧ (s.sBnd = true → t.sBnd = true) ∧
    (s.sIll = true → t.sIll = true) ∧ (s.sNinit = true → t.sNinit = true)

/-- R25, R41, R250: the invariant of the machine (queues within capacity, ERR never a code of the host's, KBUF at most 3 bytes
between commands) is kept by every step. -/
def Obligations.EveryStepKeepsTheInvariant : Prop :=
  ∀ s t : State, s.Inv → step s = .next t → t.Inv

/-- R48: the invariant holds after reset. -/
def Obligations.ResetMeetsTheInvariant : Prop := State.reset.Inv

/-- R68: control register n is at BASE + 4n, and an address there names it. -/
def Obligations.RegisterAddresses : Prop :=
  ∀ n : Nat, regAddress n = Config.base + 4 * n ∧ regOfAddress (regAddress n) = some n ∧ Config.base % 4 = 0

/-! ### the archive sequence -/

/-- R160, R162, R163, R164, R165, R167: the sequence yields entries only after an intact header. The header is the one the
sequence itself read: at offset1, the RES0 its AKD.CSUM of the filename left, from the state the two reads of RES0 and RES1
left; the entries are what the entry table then gave, as many as the header declares. With nothing left in the input queue
offset1 and seed2 are the sums of R102. The form of the host program is the model's choice (log 15). -/
def Obligations.ArchiveNeedsAnIntactHeader : Prop :=
  ∀ (p : Config.Params) (secret : List Byte) (cH cC : CtxField) (filename file : List Byte) (s t : State)
    (es : List Entry),
    readArchive p secret cH cC filename file s = (.ok es, t) →
    ∃ (out : List Byte) (offset1 seed2 : Word) (h : Header) (s1 s2 s3 s4 : State),
      issue p .akdCsum none filename s = (.ok out, s1) ∧ readResult p 3 s1 = (.ok offset1, s2) ∧
      readResult p 4 s2 = (.ok seed2, s3) ∧ offset1.toNat + 9 ≤ file.length ∧
      readHeader p cH (filename ++ secret) file offset1.toNat s3 = (.ok h, s4) ∧
      h.w1 = h.w2 + h.ver.setWidth 32 ∧ es.length = h.w2.toNat ∧
      readTable p cC (filename ++ secret) file offset1 seed2 h.w2.toNat s4 = (.ok es, t) ∧
      (s.din = [] →
        offset1.toNat = byteSum filename % 312 + 30 ∧ seed2.toNat = 3 * byteSum filename % 212 + 33)

/-- R169: a field that runs past the end of the file is a TruncationError with no command issued; on a valid content context
with OVF clear an entry that runs past it is one too, whichever of its fields does, if its name fits the input queue (else
BoundsError, before the file is looked at: R167, D48, and log 15 for the order); a table that has no room for the declared
entries ends the walk with one of these two errors and no entry; and an archive that yields entries holds all of them. -/
def Obligations.TruncatedFieldStopsTheWalk : Prop :=
  (∀ (p : Config.Params) (cC : CtxField) (file : List Byte) (pos n : Nat) (s : State), file.length < pos + n →
    readField p cC file pos n s = (.error (.code .truncation), s)) ∧
  (∀ (p : Config.Params) (c : CtxField) (file : List Byte) (pos : Nat) (s : State), file.length < pos + 4 →
    readEntry p c file pos s = (.error (.code .truncation), s)) ∧
  (∀ (p : Config.Params) (c : CtxField) (file : List Byte) (pos n : Nat) (s : State) (k : Ctx), s.ReadyFor c k →
    pos + 4 ≤ file.length → n = nameChars p.rom file pos k →
    (2 * n ≤ Config.bufcap → file.length < pos + 40 + 2 * n → ∃ t, readEntry p c file pos s = (.error (.code .truncation), t)) ∧
    (Config.bufcap < 2 * n → ∃ t, readEntry p c file pos s = (.error (.code .bounds), t))) ∧
  (∀ (p : Config.Params) (c : CtxField) (file : List Byte) (count pos : Nat) (s : State) (k : Ctx), s.ReadyFor c k →
    count ≠ 0 → file.length < pos + 40 * count →
    ∃ t, readEntries p c file count pos s = (.error (.code .truncation), t) ∨
      readEntries p c file count pos s = (.error (.code .bounds), t)) ∧
  (∀ (p : Config.Params) (secret : List Byte) (cH cC : CtxField) (filename file : List Byte) (s t : State)
    (es : List Entry), s.din = [] →
    readArchive p secret cH cC filename file s = (.ok es, t) → es ≠ [] →
    (byteSum filename % 312 + 30) + (3 * byteSum filename % 212 + 33) + 40 * es.length ≤ file.length)

/-- R92, R130, R163: on a valid context with OVF clear the host's one ACE.DEC of a field returns what `decrypt` gives, leaves
the context it leaves, and empties both queues. -/
def Obligations.FieldReadIsOneDecrypt : Prop :=
  ∀ (p : Config.Params) (c : CtxField) (data : List Byte) (s : State) (k : Ctx), s.din = [] → c.toNat < 2 →
    s.ovf = false → data.length ≤ Config.bufcap → s.ctxAt c = some k →
    ∃ t, issue p (.aceDec c) none data s = (.ok (decrypt p.rom data k).1, t) ∧ t.ctxAt c = some (decrypt p.rom data k).2 ∧
      t.din = [] ∧ t.dout = [] ∧ t.err = .ok ∧ t.ovf = false

/-- R162, R164, R165, R166: what the sequence answers, from each point it gets past: BoundsError when the header lies past the
end of the file; IntegrityError, with no further command, when it is not intact; else the entry table's answer, an error of it
included. The table's answer is the walk from offset1 + seed2 on, after one AKD.CKEY with that seed and one ACE.INIT. The
host program is log 15. -/
def Obligations.ArchiveOutcomeFollowsTheHeader : Prop :=
  (∀ (p : Config.Params) (secret : List Byte) (cH cC : CtxField) (filename file : List Byte) (s s1 s2 s3 : State)
    (out : List Byte) (offset1 seed2 : Word),
    issue p .akdCsum none filename s = (.ok out, s1) → readResult p 3 s1 = (.ok offset1, s2) →
    readResult p 4 s2 = (.ok seed2, s3) →
    (file.length < offset1.toNat + 9 → readArchive p secret cH cC filename file s = (.error (.code .bounds), s3)) ∧
    (∀ (h : Header) (s4 : State), offset1.toNat + 9 ≤ file.length →
      readHeader p cH (filename ++ secret) file offset1.toNat s3 = (.ok h, s4) →
      readArchive p secret cH cC filename file s
        = if h.w1 = h.w2 + h.ver.setWidth 32 then readTable p cC (filename ++ secret) file offset1 seed2 h.w2.toNat s4
          else (.error (.code .integrity), s4))) ∧
  (∀ (p : Config.Params) (cC : CtxField) (combined file ckey out : List Byte) (offset1 seed2 : Word) (count : Nat)
    (s s1 s2 : State),
    issue p .akdCkey (some (offset1 + seed2)) combined s = (.ok ckey, s1) →
    issue p (.aceInit cC) none ckey s1 = (.ok out, s2) →
    readTable p cC combined file offset1 seed2 count s
      = readEntries p cC file count (offset1.toNat + seed2.toNat) s2)

/-- R167, R168: on a valid content context with OVF clear, an entry that lies in the file and whose name fits the input queue
is read whole: its eight fields in the order and with the lengths of R168, each decrypted on the context the field before
left, the name of twice as many bytes as the first field says; the entry takes 40 + 2n bytes, and no other context is touched.
The host program is log 15. -/
def Obligations.EntryReadsItsFieldsInOrder : Prop :=
  ∀ (p : Config.Params) (c : CtxField) (file : List Byte) (pos n : Nat) (s : State) (k : Ctx), s.ReadyFor c k →
    n = nameChars p.rom file pos k → 2 * n ≤ Config.bufcap → pos + 40 + 2 * n ≤ file.length →
    ∃ (e : Entry) (t : State) (k' : Ctx) (b0 b2 b3 b4 b5 b6 : List Byte),
      readEntry p c file pos s = (.ok (e, pos + 40 + 2 * n), t) ∧
      decryptFields p.rom (entryFields file pos n) k = ([b0, e.name, b2, b3, b4, b5, b6, e.fkey], k') ∧
      e.unk1 = u32 b2 ∧ e.cflag = u32 b3 ∧ e.unk2 = u32 b4 ∧ e.unk3 = u32 b5 ∧ e.unk4 = u32 b6 ∧
      e.name.length = 2 * n ∧ e.fkey.length = 16 ∧
      t.ReadyFor c k' ∧ t.dout = [] ∧ ∀ d, d ≠ c → t.ctxAt d = s.ctxAt d

/-- R160, R167, R169: the walk reads entry after entry, each from where the one before ended and from the state it left; an
error, in the first entry or in a later one, ends it with that error and with no entry. The host program is log 15. -/
def Obligations.EntriesAreReadInOrder : Prop :=
  ∀ (p : Config.Params) (c : CtxField) (file : List Byte) (pos : Nat) (s : State),
    readEntries p c file 0 pos s = (.ok [], s) ∧
    (∀ (n : Nat) (e : HostError) (t : State), readEntry p c file pos s = (.error e, t) →
      readEntries p c file (n + 1) pos s = (.error e, t)) ∧
    (∀ (n pos' : Nat) (e : HostError) (x : Entry) (s' t : State), readEntry p c file pos s = (.ok (x, pos'), s') →
      readEntries p c file n pos' s' = (.error e, t) → readEntries p c file (n + 1) pos s = (.error e, t)) ∧
    (∀ (n pos' : Nat) (xs : List Entry) (x : Entry) (s' t : State), readEntry p c file pos s = (.ok (x, pos'), s') →
      readEntries p c file n pos' s' = (.ok xs, t) → readEntries p c file (n + 1) pos s = (.ok (x :: xs), t))

/-- R280, D6: the host refuses an operand longer than BUFCAP with no access, and takes a set OVF, whether a byte of this
operand was dropped or one earlier, for an error of its own; so a command that answers ran on the whole operand, and an archive
that yields entries passed none shortened. The host program is log 15; BoundsError for the refusal, and a set OVF from earlier
accesses as a failure, are the model's choice (log 19). -/
def Obligations.NoCommandAnswersOnAShortenedOperand : Prop :=
  (∀ (p : Config.Params) (i : Instr) (arg0 : Option Word) (data : List Byte) (s : State), Config.bufcap < data.length →
    issue p i arg0 data s = (.error (.code .bounds), s)) ∧
  (∀ (p : Config.Params) (i : Instr) (arg0 : Option Word) (data : List Byte) (s : State), i ≠ .sysClrerr →
    data.length ≤ Config.bufcap → s.ovf = true ∨ (data ≠ [] ∧ Config.bufcap < s.din.length + data.length) →
    ∃ t, issue p i arg0 data s = (.error .overflow, t) ∧ t.ovf = true) ∧
  (∀ (p : Config.Params) (i : Instr) (arg0 : Option Word) (data out : List Byte) (s t : State), i ≠ .sysClrerr →
    issue p i arg0 data s = (.ok out, t) →
    data.length ≤ Config.bufcap ∧ t.ovf = false ∧ ∃ s1,
      s1 = runWith p i { s with
        arg0 := arg0.getD s.arg0, din := s.din ++ data, dout := [], rdata := none, cmdIndex := s.cmdIndex + 1 } ∧
      s1.err = .ok ∧ out = s1.dout ∧ t = { s1 with dout := [], rdata := t.rdata }) ∧
  (∀ (p : Config.Params) (secret : List Byte) (cH cC : CtxField) (filename file : List Byte) (s t : State)
    (es : List Entry), readArchive p secret cH cC filename file s = (.ok es, t) →
    (filename ++ secret).length ≤ Config.bufcap ∧ t.ovf = false)
end

