-- ==== Sys2Proof/Laws/State.lean ====
section
/-! SUPPORT. For each update of the state, what each field is after it. -/

namespace Sys2Proof.Machine

open Sys2Proof

/-! ### the start of a launch -/

@[simp] theorem State.beginLaunch_ctxs (s : State) : (s.beginLaunch).ctxs = s.ctxs := rfl
@[simp] theorem State.beginLaunch_nkey (s : State) : (s.beginLaunch).nkey = s.nkey := rfl
@[simp] theorem State.beginLaunch_arg0 (s : State) : (s.beginLaunch).arg0 = s.arg0 := rfl
@[simp] theorem State.beginLaunch_err (s : State) : (s.beginLaunch).err = s.err := rfl
@[simp] theorem State.beginLaunch_ovf (s : State) : (s.beginLaunch).ovf = s.ovf := rfl
@[simp] theorem State.beginLaunch_sCfg (s : State) : (s.beginLaunch).sCfg = s.sCfg := rfl
@[simp] theorem State.beginLaunch_sBnd (s : State) : (s.beginLaunch).sBnd = s.sBnd := rfl
@[simp] theorem State.beginLaunch_sIll (s : State) : (s.beginLaunch).sIll = s.sIll := rfl
@[simp] theorem State.beginLaunch_sNinit (s : State) : (s.beginLaunch).sNinit = s.sNinit := rfl
@[simp] theorem State.beginLaunch_res0 (s : State) : (s.beginLaunch).res0 = s.res0 := rfl
@[simp] theorem State.beginLaunch_res1 (s : State) : (s.beginLaunch).res1 = s.res1 := rfl
@[simp] theorem State.beginLaunch_res2 (s : State) : (s.beginLaunch).res2 = s.res2 := rfl
@[simp] theorem State.beginLaunch_din (s : State) : (s.beginLaunch).din = s.din := rfl
@[simp] theorem State.beginLaunch_dout (s : State) : (s.beginLaunch).dout = [] := rfl
@[simp] theorem State.beginLaunch_cmdIndex (s : State) : (s.beginLaunch).cmdIndex = s.cmdIndex + 1 := rfl
@[simp] theorem State.beginLaunch_pending (s : State) : (s.beginLaunch).pending = s.pending := rfl
@[simp] theorem State.beginLaunch_rdata (s : State) : (s.beginLaunch).rdata = s.rdata := rfl

/-! ### a command that succeeds -/

@[simp] theorem State.succeed_ctxs (r : Result) (s : State) : (s.succeed r).ctxs = s.ctxs := rfl
@[simp] theorem State.succeed_nkey (r : Result) (s : State) : (s.succeed r).nkey = s.nkey := rfl
@[simp] theorem State.succeed_arg0 (r : Result) (s : State) : (s.succeed r).arg0 = s.arg0 := rfl
@[simp] theorem State.succeed_err (r : Result) (s : State) : (s.succeed r).err = .ok := rfl
@[simp] theorem State.succeed_ovf (r : Result) (s : State) : (s.succeed r).ovf = s.ovf := rfl
@[simp] theorem State.succeed_sCfg (r : Result) (s : State) : (s.succeed r).sCfg = s.sCfg := rfl
@[simp] theorem State.succeed_sBnd (r : Result) (s : State) : (s.succeed r).sBnd = s.sBnd := rfl
@[simp] theorem State.succeed_sIll (r : Result) (s : State) : (s.succeed r).sIll = s.sIll := rfl
@[simp] theorem State.succeed_sNinit (r : Result) (s : State) : (s.succeed r).sNinit = s.sNinit := rfl
@[simp] theorem State.succeed_res0 (r : Result) (s : State) : (s.succeed r).res0 = r.res0.getD s.res0 := rfl
@[simp] theorem State.succeed_res1 (r : Result) (s : State) : (s.succeed r).res1 = r.res1.getD s.res1 := rfl
@[simp] theorem State.succeed_res2 (r : Result) (s : State) : (s.succeed r).res2 = r.res2.getD s.res2 := rfl
@[simp] theorem State.succeed_din (r : Result) (s : State) : (s.succeed r).din = [] := rfl
@[simp] theorem State.succeed_dout (r : Result) (s : State) : (s.succeed r).dout = r.out := rfl
@[simp] theorem State.succeed_cmdIndex (r : Result) (s : State) : (s.succeed r).cmdIndex = s.cmdIndex := rfl
@[simp] theorem State.succeed_pending (r : Result) (s : State) : (s.succeed r).pending = s.pending := rfl
@[simp] theorem State.succeed_rdata (r : Result) (s : State) : (s.succeed r).rdata = s.rdata := rfl

/-! ### a command that ends in an error -/

@[simp] theorem State.setSticky_ctxs (e : ErrCode) (s : State) : (s.setSticky e).ctxs = s.ctxs := by cases e <;> rfl
@[simp] theorem State.setSticky_nkey (e : ErrCode) (s : State) : (s.setSticky e).nkey = s.nkey := by cases e <;> rfl
@[simp] theorem State.setSticky_arg0 (e : ErrCode) (s : State) : (s.setSticky e).arg0 = s.arg0 := by cases e <;> rfl
@[simp] theorem State.setSticky_err (e : ErrCode) (s : State) : (s.setSticky e).err = s.err := by cases e <;> rfl
@[simp] theorem State.setSticky_ovf (e : ErrCode) (s : State) : (s.setSticky e).ovf = s.ovf := by cases e <;> rfl
@[simp] theorem State.setSticky_sCfg (e : ErrCode) (s : State) : (s.setSticky e).sCfg = (s.sCfg || decide (e = .configuration)) := by cases e <;> simp [State.setSticky]
@[simp] theorem State.setSticky_sBnd (e : ErrCode) (s : State) : (s.setSticky e).sBnd = (s.sBnd || decide (e = .bounds)) := by cases e <;> simp [State.setSticky]
@[simp] theorem State.setSticky_sIll (e : ErrCode) (s : State) : (s.setSticky e).sIll = (s.sIll || decide (e = .illegalCommand)) := by cases e <;> simp [State.setSticky]
@[simp] theorem State.setSticky_sNinit (e : ErrCode) (s : State) : (s.setSticky e).sNinit = (s.sNinit || decide (e = .notInitialised)) := by cases e <;> simp [State.setSticky]
@[simp] theorem State.setSticky_res0 (e : ErrCode) (s : State) : (s.setSticky e).res0 = s.res0 := by cases e <;> rfl
@[simp] theorem State.setSticky_res1 (e : ErrCode) (s : State) : (s.setSticky e).res1 = s.res1 := by cases e <;> rfl
@[simp] theorem State.setSticky_res2 (e : ErrCode) (s : State) : (s.setSticky e).res2 = s.res2 := by cases e <;> rfl
@[simp] theorem State.setSticky_din (e : ErrCode) (s : State) : (s.setSticky e).din = s.din := by cases e <;> rfl
@[simp] theorem State.setSticky_dout (e : ErrCode) (s : State) : (s.setSticky e).dout = s.dout := by cases e <;> rfl
@[simp] theorem State.setSticky_cmdIndex (e : ErrCode) (s : State) : (s.setSticky e).cmdIndex = s.cmdIndex := by cases e <;> rfl
@[simp] theorem State.setSticky_pending (e : ErrCode) (s : State) : (s.setSticky e).pending = s.pending := by cases e <;> rfl
@[simp] theorem State.setSticky_rdata (e : ErrCode) (s : State) : (s.setSticky e).rdata = s.rdata := by cases e <;> rfl

@[simp] theorem State.raiseError_ctxs (e : ErrCode) (s : State) : (s.raiseError e).ctxs = s.ctxs := State.setSticky_ctxs e s
@[simp] theorem State.raiseError_nkey (e : ErrCode) (s : State) : (s.raiseError e).nkey = s.nkey := State.setSticky_nkey e s
@[simp] theorem State.raiseError_arg0 (e : ErrCode) (s : State) : (s.raiseError e).arg0 = s.arg0 := State.setSticky_arg0 e s
@[simp] theorem State.raiseError_err (e : ErrCode) (s : State) : (s.raiseError e).err = e := rfl
@[simp] theorem State.raiseError_ovf (e : ErrCode) (s : State) : (s.raiseError e).ovf = s.ovf := State.setSticky_ovf e s
@[simp] theorem State.raiseError_sCfg (e : ErrCode) (s : State) : (s.raiseError e).sCfg = (s.sCfg || decide (e = .configuration)) := State.setSticky_sCfg e s
@[simp] theorem State.raiseError_sBnd (e : ErrCode) (s : State) : (s.raiseError e).sBnd = (s.sBnd || decide (e = .bounds)) := State.setSticky_sBnd e s
@[simp] theorem State.raiseError_sIll (e : ErrCode) (s : State) : (s.raiseError e).sIll = (s.sIll || decide (e = .illegalCommand)) := State.setSticky_sIll e s
@[simp] theorem State.raiseError_sNinit (e : ErrCode) (s : State) : (s.raiseError e).sNinit = (s.sNinit || decide (e = .notInitialised)) := State.setSticky_sNinit e s
@[simp] theorem State.raiseError_res0 (e : ErrCode) (s : State) : (s.raiseError e).res0 = s.res0 := State.setSticky_res0 e s
@[simp] theorem State.raiseError_res1 (e : ErrCode) (s : State) : (s.raiseError e).res1 = s.res1 := State.setSticky_res1 e s
@[simp] theorem State.raiseError_res2 (e : ErrCode) (s : State) : (s.raiseError e).res2 = s.res2 := State.setSticky_res2 e s
@[simp] theorem State.raiseError_din (e : ErrCode) (s : State) : (s.raiseError e).din = [] := rfl
@[simp] theorem State.raiseError_dout (e : ErrCode) (s : State) : (s.raiseError e).dout = [] := rfl
@[simp] theorem State.raiseError_cmdIndex (e : ErrCode) (s : State) : (s.raiseError e).cmdIndex = s.cmdIndex := State.setSticky_cmdIndex e s
@[simp] theorem State.raiseError_pending (e : ErrCode) (s : State) : (s.raiseError e).pending = s.pending := State.setSticky_pending e s
@[simp] theorem State.raiseError_rdata (e : ErrCode) (s : State) : (s.raiseError e).rdata = s.rdata := State.setSticky_rdata e s

/-! ### SYS.CLRERR -/

@[simp] theorem State.clearSticky_ctxs (s : State) : (s.clearSticky).ctxs = s.ctxs := rfl
@[simp] theorem State.clearSticky_nkey (s : State) : (s.clearSticky).nkey = s.nkey := rfl
@[simp] theorem State.clearSticky_arg0 (s : State) : (s.clearSticky).arg0 = s.arg0 := rfl
@[simp] theorem State.clearSticky_err (s : State) : (s.clearSticky).err = s.err := rfl
@[simp] theorem State.clearSticky_ovf (s : State) : (s.clearSticky).ovf = false := rfl
@[simp] theorem State.clearSticky_sCfg (s : State) : (s.clearSticky).sCfg = false := rfl
@[simp] theorem State.clearSticky_sBnd (s : State) : (s.clearSticky).sBnd = false := rfl
@[simp] theorem State.clearSticky_sIll (s : State) : (s.clearSticky).sIll = false := rfl
@[simp] theorem State.clearSticky_sNinit (s : State) : (s.clearSticky).sNinit = false := rfl
@[simp] theorem State.clearSticky_res0 (s : State) : (s.clearSticky).res0 = s.res0 := rfl
@[simp] theorem State.clearSticky_res1 (s : State) : (s.clearSticky).res1 = s.res1 := rfl
@[simp] theorem State.clearSticky_res2 (s : State) : (s.clearSticky).res2 = s.res2 := rfl
@[simp] theorem State.clearSticky_din (s : State) : (s.clearSticky).din = s.din := rfl
@[simp] theorem State.clearSticky_dout (s : State) : (s.clearSticky).dout = s.dout := rfl
@[simp] theorem State.clearSticky_cmdIndex (s : State) : (s.clearSticky).cmdIndex = s.cmdIndex := rfl
@[simp] theorem State.clearSticky_pending (s : State) : (s.clearSticky).pending = s.pending := rfl
@[simp] theorem State.clearSticky_rdata (s : State) : (s.clearSticky).rdata = s.rdata := rfl

/-! ### the cipher state -/

@[simp] theorem State.setNkey_ctxs (k : Vector Byte 268) (s : State) : (s.setNkey k).ctxs = s.ctxs := rfl
@[simp] theorem State.setNkey_nkey (k : Vector Byte 268) (s : State) : (s.setNkey k).nkey = some k := rfl
@[simp] theorem State.setNkey_arg0 (k : Vector Byte 268) (s : State) : (s.setNkey k).arg0 = s.arg0 := rfl
@[simp] theorem State.setNkey_err (k : Vector Byte 268) (s : State) : (s.setNkey k).err = s.err := rfl
@[simp] theorem State.setNkey_ovf (k : Vector Byte 268) (s : State) : (s.setNkey k).ovf = s.ovf := rfl
@[simp] theorem State.setNkey_sCfg (k : Vector Byte 268) (s : State) : (s.setNkey k).sCfg = s.sCfg := rfl
@[simp] theorem State.setNkey_sBnd (k : Vector Byte 268) (s : State) : (s.setNkey k).sBnd = s.sBnd := rfl
@[simp] theorem State.setNkey_sIll (k : Vector Byte 268) (s : State) : (s.setNkey k).sIll = s.sIll := rfl
@[simp] theorem State.setNkey_sNinit (k : Vector Byte 268) (s : State) : (s.setNkey k).sNinit = s.sNinit := rfl
@[simp] theorem State.setNkey_res0 (k : Vector Byte 268) (s : State) : (s.setNkey k).res0 = s.res0 := rfl
@[simp] theorem State.setNkey_res1 (k : Vector Byte 268) (s : State) : (s.setNkey k).res1 = s.res1 := rfl
@[simp] theorem State.setNkey_res2 (k : Vector Byte 268) (s : State) : (s.setNkey k).res2 = s.res2 := rfl
@[simp] theorem State.setNkey_din (k : Vector Byte 268) (s : State) : (s.setNkey k).din = s.din := rfl
@[simp] theorem State.setNkey_dout (k : Vector Byte 268) (s : State) : (s.setNkey k).dout = s.dout := rfl
@[simp] theorem State.setNkey_cmdIndex (k : Vector Byte 268) (s : State) : (s.setNkey k).cmdIndex = s.cmdIndex := rfl
@[simp] theorem State.setNkey_pending (k : Vector Byte 268) (s : State) : (s.setNkey k).pending = s.pending := rfl
@[simp] theorem State.setNkey_rdata (k : Vector Byte 268) (s : State) : (s.setNkey k).rdata = s.rdata := rfl

@[simp] theorem State.setCtx_nkey (c : CtxField) (k : Ctx) (s : State) : (s.setCtx c k).nkey = s.nkey := by
  unfold State.setCtx; split <;> rfl
@[simp] theorem State.setCtx_arg0 (c : CtxField) (k : Ctx) (s : State) : (s.setCtx c k).arg0 = s.arg0 := by
  unfold State.setCtx; split <;> rfl
@[simp] theorem State.setCtx_err (c : CtxField) (k : Ctx) (s : State) : (s.setCtx c k).err = s.err := by
  unfold State.setCtx; split <;> rfl
@[simp] theorem State.setCtx_ovf (c : CtxField) (k : Ctx) (s : State) : (s.setCtx c k).ovf = s.ovf := by
  unfold State.setCtx; split <;> rfl
@[simp] theorem State.setCtx_sCfg (c : CtxField) (k : Ctx) (s : State) : (s.setCtx c k).sCfg = s.sCfg := by
  unfold State.setCtx; split <;> rfl
@[simp] theorem State.setCtx_sBnd (c : CtxField) (k : Ctx) (s : State) : (s.setCtx c k).sBnd = s.sBnd := by
  unfold State.setCtx; split <;> rfl
@[simp] theorem State.setCtx_sIll (c : CtxField) (k : Ctx) (s : State) : (s.setCtx c k).sIll = s.sIll := by
  unfold State.setCtx; split <;> rfl
@[simp] theorem State.setCtx_sNinit (c : CtxField) (k : Ctx) (s : State) : (s.setCtx c k).sNinit = s.sNinit := by
  unfold State.setCtx; split <;> rfl
@[simp] theorem State.setCtx_res0 (c : CtxField) (k : Ctx) (s : State) : (s.setCtx c k).res0 = s.res0 := by
  unfold State.setCtx; split <;> rfl
@[simp] theorem State.setCtx_res1 (c : CtxField) (k : Ctx) (s : State) : (s.setCtx c k).res1 = s.res1 := by
  unfold State.setCtx; split <;> rfl
@[simp] theorem State.setCtx_res2 (c : CtxField) (k : Ctx) (s : State) : (s.setCtx c k).res2 = s.res2 := by
  unfold State.setCtx; split <;> rfl
@[simp] theorem State.setCtx_din (c : CtxField) (k : Ctx) (s : State) : (s.setCtx c k).din = s.din := by
  unfold State.setCtx; split <;> rfl
@[simp] theorem State.setCtx_dout (c : CtxField) (k : Ctx) (s : State) : (s.setCtx c k).dout = s.dout := by
  unfold State.setCtx; split <;> rfl
@[simp] theorem State.setCtx_cmdIndex (c : CtxField) (k : Ctx) (s : State) : (s.setCtx c k).cmdIndex = s.cmdIndex := by
  unfold State.setCtx; split <;> rfl
@[simp] theorem State.setCtx_pending (c : CtxField) (k : Ctx) (s : State) : (s.setCtx c k).pending = s.pending := by
  unfold State.setCtx; split <;> rfl
@[simp] theorem State.setCtx_rdata (c : CtxField) (k : Ctx) (s : State) : (s.setCtx c k).rdata = s.rdata := by
  unfold State.setCtx; split <;> rfl

/-! ### the queues and the reset event -/

@[simp] theorem State.pushDin_ctxs (b : Byte) (s : State) : (s.pushDin b).ctxs = s.ctxs := by
  unfold State.pushDin; split <;> rfl
@[simp] theorem State.pushDin_nkey (b : Byte) (s : State) : (s.pushDin b).nkey = s.nkey := by
  unfold State.pushDin; split <;> rfl
@[simp] theorem State.pushDin_arg0 (b : Byte) (s : State) : (s.pushDin b).arg0 = s.arg0 := by
  unfold State.pushDin; split <;> rfl
@[simp] theorem State.pushDin_err (b : Byte) (s : State) : (s.pushDin b).err = s.err := by
  unfold State.pushDin; split <;> rfl
@[simp] theorem State.pushDin_sCfg (b : Byte) (s : State) : (s.pushDin b).sCfg = s.sCfg := by
  unfold State.pushDin; split <;> rfl
@[simp] theorem State.pushDin_sBnd (b : Byte) (s : State) : (s.pushDin b).sBnd = s.sBnd := by
  unfold State.pushDin; split <;> rfl
@[simp] theorem State.pushDin_sIll (b : Byte) (s : State) : (s.pushDin b).sIll = s.sIll := by
  unfold State.pushDin; split <;> rfl
@[simp] theorem State.pushDin_sNinit (b : Byte) (s : State) : (s.pushDin b).sNinit = s.sNinit := by
  unfold State.pushDin; split <;> rfl
@[simp] theorem State.pushDin_res0 (b : Byte) (s : State) : (s.pushDin b).res0 = s.res0 := by
  unfold State.pushDin; split <;> rfl
@[simp] theorem State.pushDin_res1 (b : Byte) (s : State) : (s.pushDin b).res1 = s.res1 := by
  unfold State.pushDin; split <;> rfl
@[simp] theorem State.pushDin_res2 (b : Byte) (s : State) : (s.pushDin b).res2 = s.res2 := by
  unfold State.pushDin; split <;> rfl
@[simp] theorem State.pushDin_dout (b : Byte) (s : State) : (s.pushDin b).dout = s.dout := by
  unfold State.pushDin; split <;> rfl
@[simp] theorem State.pushDin_cmdIndex (b : Byte) (s : State) : (s.pushDin b).cmdIndex = s.cmdIndex := by
  unfold State.pushDin; split <;> rfl
@[simp] theorem State.pushDin_pending (b : Byte) (s : State) : (s.pushDin b).pending = s.pending := by
  unfold State.pushDin; split <;> rfl
@[simp] theorem State.pushDin_rdata (b : Byte) (s : State) : (s.pushDin b).rdata = s.rdata := by
  unfold State.pushDin; split <;> rfl
@[simp] theorem State.popDout_ctxs (s : State) : (s.popDout).2.ctxs = s.ctxs := by
  unfold State.popDout; split <;> rfl
@[simp] theorem State.popDout_nkey (s : State) : (s.popDout).2.nkey = s.nkey := by
  unfold State.popDout; split <;> rfl
@[simp] theorem State.popDout_arg0 (s : State) : (s.popDout).2.arg0 = s.arg0 := by
  unfold State.popDout; split <;> rfl
@[simp] theorem State.popDout_err (s : State) : (s.popDout).2.err = s.err := by
  unfold State.popDout; split <;> rfl
@[simp] theorem State.popDout_ovf (s : State) : (s.popDout).2.ovf = s.ovf := by
  unfold State.popDout; split <;> rfl
@[simp] theorem State.popDout_sCfg (s : State) : (s.popDout).2.sCfg = s.sCfg := by
  unfold State.popDout; split <;> rfl
@[simp] theorem State.popDout_sBnd (s : State) : (s.popDout).2.sBnd = s.sBnd := by
  unfold State.popDout; split <;> rfl
@[simp] theorem State.popDout_sIll (s : State) : (s.popDout).2.sIll = s.sIll := by
  unfold State.popDout; split <;> rfl
@[simp] theorem State.popDout_sNinit (s : State) : (s.popDout).2.sNinit = s.sNinit := by
  unfold State.popDout; split <;> rfl
@[simp] theorem State.popDout_res0 (s : State) : (s.popDout).2.res0 = s.res0 := by
  unfold State.popDout; split <;> rfl
@[simp] theorem State.popDout_res1 (s : State) : (s.popDout).2.res1 = s.res1 := by
  unfold State.popDout; split <;> rfl
@[simp] theorem State.popDout_res2 (s : State) : (s.popDout).2.res2 = s.res2 := by
  unfold State.popDout; split <;> rfl
@[simp] theorem State.popDout_din (s : State) : (s.popDout).2.din = s.din := by
  unfold State.popDout; split <;> rfl
@[simp] theorem State.popDout_cmdIndex (s : State) : (s.popDout).2.cmdIndex = s.cmdIndex := by
  unfold State.popDout; split <;> rfl
@[simp] theorem State.popDout_pending (s : State) : (s.popDout).2.pending = s.pending := by
  unfold State.popDout; split <;> rfl
@[simp] theorem State.popDout_rdata (s : State) : (s.popDout).2.rdata = s.rdata := by
  unfold State.popDout; split <;> rfl

@[simp] theorem State.resetEvent_ctxs (s : State) : (s.resetEvent).ctxs = Vector.replicate Config.nctx none := rfl
@[simp] theorem State.resetEvent_nkey (s : State) : (s.resetEvent).nkey = none := rfl
@[simp] theorem State.resetEvent_arg0 (s : State) : (s.resetEvent).arg0 = 0#32 := rfl
@[simp] theorem State.resetEvent_err (s : State) : (s.resetEvent).err = .ok := rfl
@[simp] theorem State.resetEvent_ovf (s : State) : (s.resetEvent).ovf = false := rfl
@[simp] theorem State.resetEvent_sCfg (s : State) : (s.resetEvent).sCfg = false := rfl
@[simp] theorem State.resetEvent_sBnd (s : State) : (s.resetEvent).sBnd = false := rfl
@[simp] theorem State.resetEvent_sIll (s : State) : (s.resetEvent).sIll = false := rfl
@[simp] theorem State.resetEvent_sNinit (s : State) : (s.resetEvent).sNinit = false := rfl
@[simp] theorem State.resetEvent_res0 (s : State) : (s.resetEvent).res0 = 0#32 := rfl
@[simp] theorem State.resetEvent_res1 (s : State) : (s.resetEvent).res1 = 0#32 := rfl
@[simp] theorem State.resetEvent_res2 (s : State) : (s.resetEvent).res2 = 0#32 := rfl
@[simp] theorem State.resetEvent_din (s : State) : (s.resetEvent).din = [] := rfl
@[simp] theorem State.resetEvent_dout (s : State) : (s.resetEvent).dout = [] := rfl
@[simp] theorem State.resetEvent_cmdIndex (s : State) : (s.resetEvent).cmdIndex = s.cmdIndex := rfl
@[simp] theorem State.resetEvent_pending (s : State) : (s.resetEvent).pending = s.pending := rfl
@[simp] theorem State.resetEvent_rdata (s : State) : (s.resetEvent).rdata = none := rfl

/-! ### two states are equal when their fields are -/

theorem State.ext_fields {s t : State} (h1 : s.ctxs = t.ctxs) (h2 : s.nkey = t.nkey) (h3 : s.arg0 = t.arg0)
    (h4 : s.err = t.err) (h5 : s.ovf = t.ovf) (h6 : s.sCfg = t.sCfg) (h7 : s.sBnd = t.sBnd) (h8 : s.sIll = t.sIll)
    (h9 : s.sNinit = t.sNinit) (h10 : s.res0 = t.res0) (h11 : s.res1 = t.res1) (h12 : s.res2 = t.res2)
    (h13 : s.din = t.din) (h14 : s.dout = t.dout) (h15 : s.cmdIndex = t.cmdIndex) (h16 : s.pending = t.pending)
    (h17 : s.rdata = t.rdata) : s = t := by
  cases s; cases t; simp_all

end Sys2Proof.Machine
end

