-- ==== Sys2Proof/Laws/Ops.lean ====
section
/-! SUPPORT. What each shared operation can do, said once: contexts, valid bits, the ends of a command, the launch. -/

namespace Sys2Proof.Machine

open Sys2Proof

/-! ### contexts and valid bits -/

theorem State.ctxAt_congr {s t : State} (h : t.ctxs = s.ctxs) (c : CtxField) : t.ctxAt c = s.ctxAt c := by
  unfold State.ctxAt; rw [h]

theorem State.valid_congr {s t : State} (h : t.ctxs = s.ctxs) (c : Nat) : t.valid c = s.valid c := by
  unfold State.valid; rw [h]

@[simp] theorem State.ctxAt_succeed (r : Result) (s : State) (c : CtxField) : (s.succeed r).ctxAt c = s.ctxAt c := rfl

@[simp] theorem State.ctxAt_raiseError (e : ErrCode) (s : State) (c : CtxField) :
    (s.raiseError e).ctxAt c = s.ctxAt c := State.ctxAt_congr (State.raiseError_ctxs e s) c

@[simp] theorem State.ctxAt_beginLaunch (s : State) (c : CtxField) : s.beginLaunch.ctxAt c = s.ctxAt c := rfl

theorem State.valid_eq_isSome (s : State) (c : CtxField) (h : c.toNat < Config.nctx) :
    s.valid c.toNat = (s.ctxAt c).isSome := by
  simp [State.valid, State.ctxAt, h]

theorem State.setCtx_ctxs (c : CtxField) (k : Ctx) (s : State) (h : c.toNat < Config.nctx) :
    (s.setCtx c k).ctxs = s.ctxs.set c.toNat (some k) := by
  simp [State.setCtx, h]

theorem State.setCtx_eq (c : CtxField) (k : Ctx) (s : State) (h : c.toNat < Config.nctx) :
    s.setCtx c k = { s with ctxs := s.ctxs.set c.toNat (some k) } := by
  simp [State.setCtx, h]

theorem State.ctxAt_setCtx_self (c : CtxField) (k : Ctx) (s : State) (h : c.toNat < Config.nctx) :
    (s.setCtx c k).ctxAt c = some k := by
  simp [State.ctxAt, h, State.setCtx_ctxs]

theorem State.ctxAt_setCtx_other (c d : CtxField) (k : Ctx) (s : State) (h : d ≠ c) :
    (s.setCtx c k).ctxAt d = s.ctxAt d := by
  have hne : c.toNat ≠ d.toNat := fun e => h (BitVec.eq_of_toNat_eq e.symm)
  unfold State.setCtx State.ctxAt
  split
  · split
    · exact Vector.getElem_set_ne (by assumption) (by assumption) hne
    · rfl
  · rfl

/-- Writing back the content a context already has changes nothing. -/
theorem State.setCtx_same (c : CtxField) (k : Ctx) (s : State) (h : s.ctxAt c = some k) : s.setCtx c k = s := by
  unfold State.setCtx
  split
  · rename_i hc
    have hk : s.ctxs[c.toNat] = some k := by simpa [State.ctxAt, hc] using h
    rw [← hk, Vector.set_getElem_self]
  · rfl

/-! ### the end of a command -/

@[simp] theorem State.finish_ok (r : Result) (s : State) : s.finish (.ok r) = s.succeed r := rfl

@[simp] theorem State.finish_error (e : ErrCode) (s : State) : s.finish (.error e) = s.raiseError e := rfl

/-- The whole effect of ending a command in an error (R246). -/
theorem State.raiseError_eq (e : ErrCode) (s : State) :
    s.raiseError e = { s with
      dout := [], din := [], err := e
      sCfg := s.sCfg || decide (e = .configuration)
      sBnd := s.sBnd || decide (e = .bounds)
      sIll := s.sIll || decide (e = .illegalCommand)
      sNinit := s.sNinit || decide (e = .notInitialised) } := by
  apply State.ext_fields <;> simp

/-- An ending is a success with a result or an error with a code, and nothing else. -/
theorem State.finish_cases (r : Except ErrCode Result) (s : State) :
    (∃ x, r = .ok x ∧ s.finish r = s.succeed x) ∨ (∃ e, r = .error e ∧ s.finish r = s.raiseError e) := by
  cases r with
  | ok x => exact .inl ⟨x, rfl, rfl⟩
  | error e => exact .inr ⟨e, rfl, rfl⟩

/-! ### commands, launches and steps -/

/-- Every command completes: `exec` is the total function of R11 with the hardware's parameters. -/
theorem exec_eq_runWith (i : Instr) (s : State) : exec i s = .next (runWith Config.hw i s) := by
  cases i <;> rfl

theorem launch_eq_launchWith (w : Word) (s : State) : launch w s = .next (launchWith Config.hw w s) := by
  unfold launch launchWith
  split <;> simp_all [exec_eq_runWith]

theorem perform_eq_performWith (e : HostEvent) (s : State) : perform e s = .next (performWith Config.hw e s) := by
  unfold perform performWith
  split <;> simp [launch_eq_launchWith]

/-- Every step answers a next state. -/
theorem step_nil (s : State) (h : s.pending = []) : step s = .next s := by
  unfold step; rw [h]

theorem step_cons (s : State) (e : HostEvent) (rest : List HostEvent) (h : s.pending = e :: rest) :
    step s = .next (performWith Config.hw e { s with pending := rest }) := by
  unfold step; rw [h]; exact perform_eq_performWith _ _

/-- What a host event can be for the state: a launch, a register write, a register read or a reset. -/
theorem performWith_write (p : Config.Params) (r : Nat) (v : Word) (s : State) (h : r ≠ 0) :
    performWith p (.write r v) s = State.writeReg r v { s with rdata := none } := by
  cases r with
  | zero => exact absurd rfl h
  | succ n => rfl

/-- What a launch can do: run the command the word encodes, or end in IllegalCommand (R92, R86). -/
theorem launchWith_cases (p : Config.Params) (w : Word) (s : State) :
    (∃ i, decode w = .ok i ∧ launchWith p w s = runWith p i s.beginLaunch) ∨
    (∃ e, decode w = .error e ∧ launchWith p w s = s.beginLaunch.raiseError .illegalCommand) := by
  unfold launchWith
  split
  · exact .inl ⟨_, by assumption, rfl⟩
  · exact .inr ⟨_, by assumption, rfl⟩

end Sys2Proof.Machine
end

