-- ==== Sys2Proof/Laws/Commands.lean ====
section
/-! SUPPORT. What each command can do, said once: its errors with their conditions, and its success. -/

namespace Sys2Proof.Machine

open Sys2Proof

/-! ### the checks on operands -/

theorem requireNonempty_cases (d : List Byte) :
    (d = [] ∧ requireNonempty d = .error .configuration) ∨ (d ≠ [] ∧ requireNonempty d = .ok ()) := by
  cases d <;> simp [requireNonempty]

theorem requireLength_cases (n : Nat) (d : List Byte) :
    (d.length = n ∧ requireLength n d = .ok ()) ∨ (d.length ≠ n ∧ requireLength n d = .error .configuration) := by
  unfold requireLength; split <;> simp_all

/-! ### unit AKD -/

/-- The two running sums of R102 in closed form. -/
theorem charSums_eq (d : List Byte) : charSums d = (byteSum d, 3 * byteSum d) := by
  unfold charSums byteSum
  suffices ∀ a b, List.foldl (fun (acc : Nat × Nat) (b : Byte) => (acc.1 + b.toNat, acc.2 + 3 * b.toNat)) (a, b) d
      = (a + (d.map BitVec.toNat).sum, b + 3 * (d.map BitVec.toNat).sum) by simpa using this 0 0
  induction d with
  | nil => intro a b; simp
  | cons x d ih =>
    intro a b
    rw [List.foldl_cons, ih, List.map_cons, List.sum_cons]
    congr 1 <;> omega

theorem cmdAkdHkey_cases (s : State) :
    (s.din = [] ∧ cmdAkdHkey s = s.raiseError .configuration) ∨
    (s.din ≠ [] ∧ cmdAkdHkey s = s.succeed { out := ((List.range 128).map (headerKeyByte s.din)).take 16 }) := by
  rcases requireNonempty_cases s.din with ⟨h, e⟩ | ⟨h, e⟩
  · exact .inl ⟨h, by simp [cmdAkdHkey, deriveHeaderKey, State.data, e]⟩
  · exact .inr ⟨h, by simp [cmdAkdHkey, deriveHeaderKey, State.data, e]⟩

theorem cmdAkdCkey_cases (s : State) :
    (s.din = [] ∧ cmdAkdCkey s = s.raiseError .configuration) ∨
    (s.din ≠ [] ∧ cmdAkdCkey s
      = s.succeed { out := ((List.range 128).map (contentKeyByte s.din s.arg0.toNat)).take 16 }) := by
  rcases requireNonempty_cases s.din with ⟨h, e⟩ | ⟨h, e⟩
  · exact .inl ⟨h, by simp [cmdAkdCkey, deriveContentKey, State.data, e]⟩
  · exact .inr ⟨h, by simp [cmdAkdCkey, deriveContentKey, State.data, State.seed, e]⟩

/-! ### unit ACE -/

theorem cmdAceInit_cases (p : Config.Params) (c : CtxField) (s : State) :
    (Config.nctx ≤ c.toNat ∧ cmdAceInit p c s = s.raiseError .illegalCommand) ∨
    (c.toNat < Config.nctx ∧ s.din.length ≠ 16 ∧ cmdAceInit p c s = s.raiseError .configuration) ∨
    (c.toNat < Config.nctx ∧ s.din.length = 16 ∧
      cmdAceInit p c s = (s.setCtx c (initialize16 p.rom s.din)).succeed { out := [] }) := by
  unfold cmdAceInit
  by_cases h : Config.nctx ≤ c.toNat
  · exact .inl ⟨h, by simp [h]⟩
  · rcases requireLength_cases 16 s.data with ⟨hl, e⟩ | ⟨hl, e⟩
    · exact .inr (.inr ⟨by omega, hl, by simp only [h, if_false, e]; rfl⟩)
    · exact .inr (.inl ⟨by omega, hl, by simp only [h, if_false, e]⟩)

theorem cmdAceDec_cases (p : Config.Params) (c : CtxField) (s : State) :
    (Config.nctx ≤ c.toNat ∧ cmdAceDec p c s = s.raiseError .illegalCommand) ∨
    (c.toNat < Config.nctx ∧ s.ctxAt c = none ∧ cmdAceDec p c s = s.raiseError .notInitialised) ∨
    (∃ k, c.toNat < Config.nctx ∧ s.ctxAt c = some k ∧
      cmdAceDec p c s = (s.setCtx c (decrypt p.rom s.din k).2).succeed { out := (decrypt p.rom s.din k).1 }) := by
  unfold cmdAceDec
  by_cases h : Config.nctx ≤ c.toNat
  · exact .inl ⟨h, by simp [h]⟩
  · cases e : s.ctxAt c with
    | none => exact .inr (.inl ⟨by omega, rfl, by simp only [h, if_false]⟩)
    | some k => exact .inr (.inr ⟨k, by omega, rfl, by simp only [h, if_false]; rfl⟩)

/-! ### unit NKD -/

theorem keySlice_cases (offset size : Nat) (blob : List Byte) :
    (size = 0 ∧ keySlice offset size blob = .error .configuration) ∨
    (size ≠ 0 ∧ blob.length < offset + size ∧ keySlice offset size blob = .error .bounds) ∨
    (size ≠ 0 ∧ offset + size ≤ blob.length ∧ keySlice offset size blob = .ok ((blob.drop offset).take size)) := by
  unfold keySlice
  split
  · exact .inl ⟨by assumption, rfl⟩
  · split
    · exact .inr (.inl ⟨by assumption, by assumption, rfl⟩)
    · exact .inr (.inr ⟨by assumption, by omega, rfl⟩)

theorem cmdNkdDerive_cases (p : Config.Params) (s : State) (offset size : Nat)
    (ho : offset = (p.nkfields s.arg0).1.val) (hs : size = (p.nkfields s.arg0).2.val) :
    (size = 0 ∧ cmdNkdDerive p s = s.raiseError .configuration) ∨
    (size ≠ 0 ∧ s.din.length < offset + size ∧ cmdNkdDerive p s = s.raiseError .bounds) ∨
    (size ≠ 0 ∧ offset + size ≤ s.din.length ∧ ∃ key,
      key = prependHeader p.nkhdr (ksa ((s.din.drop offset).take size)) ∧
      cmdNkdDerive p s = (s.setNkey key).succeed
        { out := key.toList, res0 := some (BitVec.ofNat 32 offset), res1 := some (BitVec.ofNat 32 size) }) := by
  subst ho hs
  rcases keySlice_cases (p.nkfields s.arg0).1.val (p.nkfields s.arg0).2.val s.din with ⟨h, e⟩ | ⟨h, h', e⟩ | ⟨h, h', e⟩
  · exact .inl ⟨h, by simp [cmdNkdDerive, deriveKey, State.seed, State.data, e]⟩
  · exact .inr (.inl ⟨h, h', by simp [cmdNkdDerive, deriveKey, State.seed, State.data, e]⟩)
  · exact .inr (.inr ⟨h, h', _, rfl, by simp [cmdNkdDerive, deriveKey, State.seed, State.data, e]⟩)

theorem cmdNkdLoad_cases (s : State) :
    (s.din.length ≠ 268 ∧ cmdNkdLoad s = s.raiseError .configuration) ∨
    (s.din.length = 268 ∧ ∃ key : Vector Byte 268, key.toList = s.din ∧
      cmdNkdLoad s = (s.setNkey key).succeed { out := [] }) := by
  unfold cmdNkdLoad
  split
  · exact .inr ⟨by assumption, _, by simp [State.data], rfl⟩
  · exact .inl ⟨by assumption, rfl⟩

/-! ### unit NPC -/

theorem encryptPacket_cases (key : Vector Byte 268) (seq : Byte) (payload : List Byte) :
    (key[0] = 0#8 ∧ encryptPacket key seq payload = .error .configuration) ∨
    (key[0] ≠ 0#8 ∧ 65534 < payload.length ∧ encryptPacket key seq payload = .error .bounds) ∨
    (key[0] ≠ 0#8 ∧ payload.length ≤ 65534 ∧ encryptPacket key seq payload = .ok
      { out := frame (payload.length + 1) seq (encryptBytes key payload)
        res0 := some (BitVec.ofNat 32 (payload.length + 1))
        res1 := some (seq.setWidth 32) }) := by
  unfold encryptPacket
  split
  · exact .inl ⟨by assumption, rfl⟩
  · split
    · exact .inr (.inl ⟨by assumption, by assumption, rfl⟩)
    · exact .inr (.inr ⟨by assumption, by omega, rfl⟩)

/-- The checks of R207, in its order. -/
theorem parseFrame_cases (fr : List Byte) :
    (fr.head? ≠ some 0xAA#8 ∧ parseFrame fr = .error .formatMismatch) ∨
    (fr.head? = some 0xAA#8 ∧
      (fr.length < 5 ∨ be16 (byteAt fr 1) (byteAt fr 2) = 0 ∨
        fr.length + 1 < 5 + be16 (byteAt fr 1) (byteAt fr 2)) ∧ parseFrame fr = .error .bounds) ∨
    (fr.head? = some 0xAA#8 ∧ 5 ≤ fr.length ∧ be16 (byteAt fr 1) (byteAt fr 2) ≠ 0 ∧
      5 + be16 (byteAt fr 1) (byteAt fr 2) ≤ fr.length + 1 ∧
      parseFrame fr = .ok (be16 (byteAt fr 1) (byteAt fr 2), byteAt fr 3,
        (fr.drop 5).take (be16 (byteAt fr 1) (byteAt fr 2) - 1))) := by
  have hm : (fr.length = 0 ∨ byteAt fr 0 ≠ 0xAA#8) ↔ fr.head? ≠ some 0xAA#8 := by
    cases fr <;> simp [byteAt]
  unfold parseFrame
  by_cases h : fr.length = 0 ∨ byteAt fr 0 ≠ 0xAA#8
  · exact .inl ⟨hm.mp h, by rw [if_pos h]⟩
  · have hh : fr.head? = some 0xAA#8 := not_not.mp (fun x => h (hm.mpr x))
    rw [if_neg h]
    refine .inr ?_
    by_cases h5 : fr.length < 5
    · exact .inl ⟨hh, .inl h5, by rw [if_pos h5]⟩
    · rw [if_neg h5]
      by_cases h0 : be16 (byteAt fr 1) (byteAt fr 2) = 0
      · exact .inl ⟨hh, .inr (.inl h0), by simp [h0]⟩
      · by_cases ht : fr.length < 5 + (be16 (byteAt fr 1) (byteAt fr 2) - 1)
        · exact .inl ⟨hh, .inr (.inr (by omega)), by simp [h0, ht]⟩
        · exact .inr ⟨hh, by omega, h0, by omega, by simp [h0, ht]⟩

theorem decryptPacket_cases (key : Vector Byte 268) (fr : List Byte) :
    (∃ e, parseFrame fr = .error e ∧ decryptPacket key fr = .error e) ∨
    (∃ x, parseFrame fr = .ok x ∧ key[0] = 0#8 ∧ decryptPacket key fr = .error .configuration) ∨
    (∃ x, parseFrame fr = .ok x ∧ key[0] ≠ 0#8 ∧ scratchSize key ≤ (key[4]).toNat ∧
      decryptPacket key fr = .error .bounds) ∨
    (∃ x, parseFrame fr = .ok x ∧ key[0] ≠ 0#8 ∧ (key[4]).toNat < scratchSize key ∧ decryptPacket key fr = .ok
      { out := decryptBytes key x.2.2
        res0 := some (BitVec.ofNat 32 x.1)
        res1 := some (x.2.1.setWidth 32) }) := by
  unfold decryptPacket
  cases e : parseFrame fr with
  | error x => exact .inl ⟨x, rfl, rfl⟩
  | ok x =>
    refine .inr ?_
    by_cases h0 : key[0] = 0#8
    · exact .inl ⟨x, rfl, h0, by simp [h0]⟩
    · by_cases h4 : scratchSize key ≤ (key[4]).toNat
      · exact .inr (.inl ⟨x, rfl, h0, h4, by simp [h0, h4]⟩)
      · exact .inr (.inr ⟨x, rfl, h0, by omega, by simp [h0, h4]⟩)

theorem cmdNpcEnc_cases (s : State) :
    (s.nkey = none ∧ cmdNpcEnc s = s.raiseError .notInitialised) ∨
    (∃ key, s.nkey = some key ∧ cmdNpcEnc s = s.finish (encryptPacket key s.seqNumber s.din)) := by
  unfold cmdNpcEnc
  cases e : s.nkey with
  | none => exact .inl ⟨rfl, rfl⟩
  | some key => exact .inr ⟨key, rfl, rfl⟩

theorem cmdNpcDec_cases (s : State) :
    (s.nkey = none ∧ cmdNpcDec s = s.raiseError .notInitialised) ∨
    (∃ key, s.nkey = some key ∧ cmdNpcDec s = s.finish (decryptPacket key s.din)) := by
  unfold cmdNpcDec
  cases e : s.nkey with
  | none => exact .inl ⟨rfl, rfl⟩
  | some key => exact .inr ⟨key, rfl, rfl⟩

/-! ### all commands -/

/-- The codes a command can end with when it fails (R240). -/
def Raisable (e : ErrCode) : Prop :=
  e = .configuration ∨ e = .bounds ∨ e = .formatMismatch ∨ e = .illegalCommand ∨ e = .notInitialised

/-- The cipher state a successful command leaves, before its result is written. -/
inductive Prepared (i : Instr) (s : State) : State → Prop where
  | same : i ≠ .sysClrerr → Prepared i s s
  | clear : i = .sysClrerr → Prepared i s s.clearSticky
  | ctx (c : CtxField) (k : Ctx) : i = .aceInit c ∨ (i = .aceDec c ∧ ∃ k0, s.ctxAt c = some k0) →
      c.toNat < Config.nctx → Prepared i s (s.setCtx c k)
  | nkey (k : Vector Byte 268) : i = .nkdDerive ∨ i = .nkdLoad → Prepared i s (s.setNkey k)

/-- The result registers a command may write (R43). -/
def Result.Allowed (i : Instr) (r : Result) : Prop :=
  (i.writesResults = false → r.res0 = none ∧ r.res1 = none ∧ r.res2 = none) ∧
  (i = .npcEnc ∨ i = .npcDec ∨ i = .nkdDerive → r.res2 = none)

/-- Every command ends in one of its errors, with the whole effect of R246, or in success. -/
theorem runWith_cases (p : Config.Params) (i : Instr) (s : State) :
    (∃ e, Raisable e ∧ runWith p i s = s.raiseError e) ∨
    (∃ r s', Prepared i s s' ∧ r.Allowed i ∧ runWith p i s = s'.succeed r) := by
  cases i with
  | sysNop => exact .inr ⟨_, _, .same (by simp), by simp [Result.Allowed, Instr.writesResults], rfl⟩
  | sysClrerr => exact .inr ⟨_, _, .clear rfl, by simp [Result.Allowed, Instr.writesResults], rfl⟩
  | akdCsum => exact .inr ⟨_, _, .same (by simp), by simp [Result.Allowed, Instr.writesResults], rfl⟩
  | akdHkey =>
    rcases cmdAkdHkey_cases s with ⟨-, e⟩ | ⟨-, e⟩
    · exact .inl ⟨_, .inl rfl, e⟩
    · exact .inr ⟨_, _, .same (by simp), by simp [Result.Allowed, Instr.writesResults], e⟩
  | akdCkey =>
    rcases cmdAkdCkey_cases s with ⟨-, e⟩ | ⟨-, e⟩
    · exact .inl ⟨_, .inl rfl, e⟩
    · exact .inr ⟨_, _, .same (by simp), by simp [Result.Allowed, Instr.writesResults], e⟩
  | aceInit c =>
    rcases cmdAceInit_cases p c s with ⟨-, e⟩ | ⟨-, -, e⟩ | ⟨h, -, e⟩
    · exact .inl ⟨_, by simp [Raisable], e⟩
    · exact .inl ⟨_, by simp [Raisable], e⟩
    · exact .inr ⟨_, _, .ctx c _ (.inl rfl) h, by simp [Result.Allowed, Instr.writesResults], e⟩
  | aceDec c =>
    rcases cmdAceDec_cases p c s with ⟨-, e⟩ | ⟨-, -, e⟩ | ⟨k, h, hk, e⟩
    · exact .inl ⟨_, by simp [Raisable], e⟩
    · exact .inl ⟨_, by simp [Raisable], e⟩
    · exact .inr ⟨_, _, .ctx c _ (.inr ⟨rfl, k, hk⟩) h, by simp [Result.Allowed, Instr.writesResults], e⟩
  | nkdDerive =>
    rcases cmdNkdDerive_cases p s _ _ rfl rfl with ⟨-, e⟩ | ⟨-, -, e⟩ | ⟨-, -, key, -, e⟩
    · exact .inl ⟨_, by simp [Raisable], e⟩
    · exact .inl ⟨_, by simp [Raisable], e⟩
    · exact .inr ⟨_, _, .nkey key (.inl rfl), by simp [Result.Allowed, Instr.writesResults], e⟩
  | nkdLoad =>
    rcases cmdNkdLoad_cases s with ⟨-, e⟩ | ⟨-, key, -, e⟩
    · exact .inl ⟨_, by simp [Raisable], e⟩
    · exact .inr ⟨_, _, .nkey key (.inr rfl), by simp [Result.Allowed, Instr.writesResults], e⟩
  | npcEnc =>
    rcases cmdNpcEnc_cases s with ⟨-, e⟩ | ⟨key, -, e⟩
    · exact .inl ⟨_, by simp [Raisable], e⟩
    · rcases encryptPacket_cases key s.seqNumber s.din with ⟨-, q⟩ | ⟨-, -, q⟩ | ⟨-, -, q⟩ <;> rw [q] at e
      · exact .inl ⟨_, by simp [Raisable], e⟩
      · exact .inl ⟨_, by simp [Raisable], e⟩
      · exact .inr ⟨_, _, .same (by simp), by simp [Result.Allowed, Instr.writesResults], e⟩
  | npcDec =>
    rcases cmdNpcDec_cases s with ⟨-, e⟩ | ⟨key, -, e⟩
    · exact .inl ⟨_, by simp [Raisable], e⟩
    · rcases decryptPacket_cases key s.din with ⟨x, hx, q⟩ | ⟨x, -, -, q⟩ | ⟨x, -, -, -, q⟩ | ⟨x, -, -, -, q⟩ <;>
        rw [q] at e
      · rcases parseFrame_cases s.din with ⟨-, y⟩ | ⟨-, -, y⟩ | ⟨-, -, -, -, y⟩ <;> rw [y] at hx
        · cases hx; exact .inl ⟨_, by simp [Raisable], e⟩
        · cases hx; exact .inl ⟨_, by simp [Raisable], e⟩
        · cases hx
      · exact .inl ⟨_, by simp [Raisable], e⟩
      · exact .inl ⟨_, by simp [Raisable], e⟩
      · exact .inr ⟨_, _, .same (by simp), by simp [Result.Allowed, Instr.writesResults], e⟩

/-- What success leaves of the state beside the cipher state it prepares (R43, R92). -/
theorem Prepared.frame {i : Instr} {s t : State} (h : Prepared i s t) :
    t.arg0 = s.arg0 ∧ t.cmdIndex = s.cmdIndex ∧ t.pending = s.pending ∧ t.rdata = s.rdata ∧
    t.res0 = s.res0 ∧ t.res1 = s.res1 ∧ t.res2 = s.res2 ∧
    (i.usesContext = false → t.ctxs = s.ctxs) ∧ (i ≠ .nkdDerive → i ≠ .nkdLoad → t.nkey = s.nkey) ∧
    (i ≠ .sysClrerr → SameSticky s t) := by
  cases h with
  | same h => simp [SameSticky]
  | clear h => subst h; simp
  | ctx c k h hc => rcases h with rfl | ⟨rfl, -⟩ <;> simp [Instr.usesContext, SameSticky]
  | nkey k h => rcases h with rfl | rfl <;> simp [SameSticky]

/-- No command but SYS.CLRERR touches OVF (R42). -/
theorem runWith_ovf (p : Config.Params) (i : Instr) (s : State) (h : i ≠ .sysClrerr) : (runWith p i s).ovf = s.ovf := by
  rcases runWith_cases p i s with ⟨e, -, q⟩ | ⟨r, s', hp, -, q⟩ <;> rw [q]
  · simp
  · rw [State.succeed_ovf]; exact (hp.frame.2.2.2.2.2.2.2.2.2 h).1

end Sys2Proof.Machine
end

