-- ==== Sys2Proof/Laws/Ace.lean ====
section
/-! SUPPORT. The keystream of a context (R129), how far a command draws it (R130), and little-endian numbers (R16). -/

namespace Sys2Proof.Machine

open Sys2Proof

/-! ### little-endian numbers -/

@[simp] theorem leBytes_length (n : Nat) : ∀ v, (leBytes v n).length = n := by
  induction n with
  | zero => intro v; rfl
  | succ n ih => intro v; simp [leBytes, ih]

theorem le_lt (s : List Byte) : le s < 256 ^ s.length := by
  induction s with
  | nil => simp [le]
  | cons b s ih => have := b.isLt; simp only [le, List.length_cons, pow_succ]; omega

theorem le_leBytes (n : Nat) : ∀ v, le (leBytes v n) = v % 256 ^ n := by
  induction n with
  | zero => intro v; simp [leBytes, le, Nat.mod_one]
  | succ n ih =>
    intro v
    simp only [leBytes, le, ih, BitVec.toNat_ofNat, show 2 ^ 8 = 256 from rfl]
    rw [pow_succ, Nat.mul_comm (256 ^ n) 256, Nat.mod_mul, Nat.mod_mod]

theorem leBytes_le (s : List Byte) : leBytes (le s) s.length = s := by
  induction s with
  | nil => rfl
  | cons b s ih =>
    have := b.isLt
    simp only [le, List.length_cons, leBytes]
    rw [show (b.toNat + 256 * le s) / 256 = le s by omega, ih]
    congr 1
    apply BitVec.eq_of_toNat_eq
    simp; omega

@[simp] theorem subtractLE_length (c k : List Byte) : (subtractLE c k).length = c.length := by
  simp [subtractLE]

/-- R131, as numbers: the output is the difference modulo 2^(8L). -/
theorem le_subtractLE (c k : List Byte) :
    (le (subtractLE c k) : Int) = ((le c : Int) - le k) % (2 ^ (8 * c.length) : Nat) := by
  have hp : (2 ^ (8 * c.length) : Nat) = 256 ^ c.length := by rw [pow_mul]; rfl
  have hpos : (0 : Int) < (2 ^ (8 * c.length) : Nat) := by positivity
  have h0 := Int.emod_nonneg ((le c : Int) - le k) (ne_of_gt hpos)
  have h1 := Int.emod_lt_of_pos ((le c : Int) - le k) hpos
  rw [subtractLE, le_leBytes, Nat.mod_eq_of_lt (by rw [← hp]; omega)]
  exact Int.toNat_of_nonneg h0

/-! ### drawing words -/

theorem Ctx.cur_le (k : Ctx) : k.cur ≤ 16 := by
  unfold Ctx.cur; split <;> omega

/-- What one draw does: it takes the word under the cursor, or regenerates when the block is exhausted (R129). -/
theorem drawWord_cases (rom : Config.Rom) (k : Ctx) :
    (∃ ks, ∃ cur : Fin 16, k.block = some { ks := ks, cur := cur.castSucc } ∧
      drawWord rom k = drawFrom k.core ks cur k.kbuf) ∨
    (k.cur = 16 ∧ drawWord rom k = drawFrom (regenerateBlock rom k.core).1 (regenerateBlock rom k.core).2 0 k.kbuf) := by
  unfold drawWord Ctx.cur
  cases hb : k.block with
  | none => exact .inr ⟨rfl, rfl⟩
  | some b =>
    by_cases h : b.cur.val < 16
    · exact .inl ⟨b.ks, ⟨b.cur.val, h⟩, by simp [Fin.castSucc, Fin.castAdd], by simp [h]⟩
    · exact .inr ⟨by have := b.cur.isLt; show b.cur.val = 16; omega, by simp [h]⟩

@[simp] theorem wordBytes_length (w : Word) : (wordBytes w).length = 4 := rfl

theorem drawWord_kbuf_length (rom : Config.Rom) (k : Ctx) :
    (drawWord rom k).kbuf.length = k.kbuf.length + 4 := by
  rcases drawWord_cases rom k with ⟨ks, cur, -, e⟩ | ⟨-, e⟩ <;> simp [e, drawFrom]

/-- m draws in a row. -/
def draws (rom : Config.Rom) : Nat → Ctx → Ctx
  | 0, k => k
  | m + 1, k => draws rom m (drawWord rom k)

theorem draws_add (rom : Config.Rom) (m n : Nat) : ∀ k, draws rom (m + n) k = draws rom n (draws rom m k) := by
  induction m with
  | zero => intro k; simp [draws]
  | succ m ih => intro k; rw [Nat.succ_add]; exact ih _

theorem draws_kbuf_length (rom : Config.Rom) (m : Nat) : ∀ k, (draws rom m k).kbuf.length = k.kbuf.length + 4 * m := by
  induction m with
  | zero => intro k; rfl
  | succ m ih => intro k; rw [draws, ih, drawWord_kbuf_length]; omega

theorem fillLoop_eq_draws (rom : Config.Rom) (n turns : Nat) :
    ∀ k : Ctx, n ≤ k.kbuf.length + 4 * turns → fillLoop rom n turns k = draws rom (k.wordsDrawn n) k := by
  induction turns with
  | zero =>
    intro k h
    rw [fillLoop, show k.wordsDrawn n = 0 by unfold Ctx.wordsDrawn; omega]; rfl
  | succ t ih =>
    intro k h
    rw [fillLoop]
    split
    · rw [ih _ (by rw [drawWord_kbuf_length]; omega),
        show k.wordsDrawn n = (drawWord rom k).wordsDrawn n + 1 by
          unfold Ctx.wordsDrawn; rw [drawWord_kbuf_length]; omega]
      rfl
    · rw [show k.wordsDrawn n = 0 by unfold Ctx.wordsDrawn; omega]; rfl

/-- `Fill(n)` draws `ceil((n - len(KBUF)) / 4)` words (R129, R130). -/
theorem fill_eq_draws (rom : Config.Rom) (n : Nat) (k : Ctx) : fill rom n k = draws rom (k.wordsDrawn n) k :=
  fillLoop_eq_draws rom n n k (by omega)

theorem le_fill_kbuf_length (rom : Config.Rom) (n : Nat) (k : Ctx) : n ≤ (fill rom n k).kbuf.length := by
  rw [fill_eq_draws, draws_kbuf_length]; unfold Ctx.wordsDrawn; omega

/-! ### the whole effect of a decrypt -/

/-- Take n bytes off KBUF. -/
def Ctx.dropKbuf (n : Nat) (k : Ctx) : Ctx := { k with kbuf := k.kbuf.drop n }

/-- R130 and R133 in one: an empty operand is no special case of the effect. -/
theorem decrypt_eq (rom : Config.Rom) (data : List Byte) (k : Ctx) :
    decrypt rom data k
      = (subtractLE data ((fill rom data.length k).kbuf.take data.length), (fill rom data.length k).dropKbuf data.length) := by
  unfold decrypt
  split
  · rename_i h
    rw [List.length_eq_zero_iff] at h
    subst h
    rfl
  · rfl

theorem drawWord_dropKbuf (rom : Config.Rom) (n : Nat) (k : Ctx) (h : n ≤ k.kbuf.length) :
    drawWord rom (k.dropKbuf n) = (drawWord rom k).dropKbuf n := by
  cases k with
  | mk core block kbuf =>
    simp only [drawWord, Ctx.dropKbuf, drawFrom]
    have hd : ∀ l, kbuf.drop n ++ l = (kbuf ++ l).drop n := fun l => (List.drop_append_of_le_length h).symm
    cases block with
    | none => simp [hd]
    | some b => by_cases hc : b.cur.val < 16 <;> simp [hc, hd]

theorem draws_dropKbuf (rom : Config.Rom) (m n : Nat) :
    ∀ k : Ctx, n ≤ k.kbuf.length → draws rom m (k.dropKbuf n) = (draws rom m k).dropKbuf n := by
  induction m with
  | zero => intro k _; rfl
  | succ m ih =>
    intro k h
    rw [draws, drawWord_dropKbuf rom n k h, ih _ (by rw [drawWord_kbuf_length]; omega), draws]

/-! ### the keystream still to come -/

/-- A draw moves the next word of the keystream to KBUF: the bytes still to come are the same, with one block less to
generate when the draw regenerated. -/
theorem upcoming_drawWord (rom : Config.Rom) (k : Ctx) :
    ∃ r, 16 * r + (drawWord rom k).cur = k.cur + 1 ∧ 1 ≤ (drawWord rom k).cur ∧
      ∀ n, (drawWord rom k).upcoming rom n = k.upcoming rom (n + r) := by
  rcases drawWord_cases rom k with ⟨ks, cur, hb, e⟩ | ⟨hc, e⟩
  · refine ⟨0, ?_, ?_, fun n => ?_⟩
    · simp [e, drawFrom, Ctx.cur, hb]
    · simp [e, drawFrom, Ctx.cur]
    · have hl : cur.val < ks.toList.length := by simp
      have hd := List.drop_eq_getElem_cons hl
      simp only [e, drawFrom, Ctx.upcoming, Ctx.blockBytes, hb, Fin.val_succ, Fin.val_castSucc, hd, List.flatMap_cons,
        Nat.add_zero, List.append_assoc]
      simp [Vector.get_eq_getElem]
  · refine ⟨1, ?_, ?_, fun n => ?_⟩
    · simp [e, drawFrom, Ctx.cur] at hc ⊢; omega
    · simp [e, drawFrom, Ctx.cur]
    · have hnil : k.blockBytes = [] := by
        unfold Ctx.blockBytes
        cases hb : k.block with
        | none => rfl
        | some b =>
          have : b.cur.val = 16 := by simpa [Ctx.cur, hb] using hc
          have hd : b.ks.toList.drop b.cur.val = [] := List.drop_eq_nil_of_le (by simp [this])
          simp [hd]
      have hl : 0 < (regenerateBlock rom k.core).2.toList.length := by simp
      have hd := List.drop_eq_getElem_cons hl
      rw [List.drop_zero] at hd
      rw [e, Ctx.upcoming, Ctx.upcoming, hnil]
      simp only [drawFrom, Ctx.blockBytes, keystream, Fin.val_succ, Fin.val_zero, Nat.zero_add]
      conv_rhs => rw [hd]
      simp [Vector.get_eq_getElem]

theorem upcoming_draws (rom : Config.Rom) (m : Nat) :
    ∀ k : Ctx, ∃ r, 16 * r + (draws rom m k).cur = k.cur + m ∧ (1 ≤ m → 1 ≤ (draws rom m k).cur) ∧
      ∀ n, (draws rom m k).upcoming rom n = k.upcoming rom (n + r) := by
  induction m with
  | zero => intro k; exact ⟨0, by simp [draws], by omega, fun n => rfl⟩
  | succ m ih =>
    intro k
    obtain ⟨r1, h1, h1', e1⟩ := upcoming_drawWord rom k
    obtain ⟨r2, h2, h2', e2⟩ := ih (drawWord rom k)
    refine ⟨r1 + r2, by rw [draws]; omega, fun _ => ?_, fun n => ?_⟩
    · rw [draws]
      cases m with
      | zero => exact h1'
      | succ m => exact h2' (by omega)
    · rw [draws, e2, e1]; congr 1; omega

theorem upcoming_dropKbuf (rom : Config.Rom) (n l : Nat) (k : Ctx) (h : l ≤ k.kbuf.length) :
    (k.dropKbuf l).upcoming rom n = (k.upcoming rom n).drop l := by
  simp only [Ctx.upcoming, Ctx.dropKbuf, List.append_assoc]
  exact (List.drop_append_of_le_length h).symm

theorem upcoming_take (rom : Config.Rom) (n l : Nat) (k : Ctx) (h : l ≤ k.kbuf.length) :
    (k.upcoming rom n).take l = k.kbuf.take l := by
  simp only [Ctx.upcoming, List.append_assoc]
  exact List.take_append_of_le_length h

/-- A fill leaves KBUF with at most 3 bytes more than it was asked for, or as it was. -/
theorem fill_kbuf_length_le (rom : Config.Rom) (n : Nat) (k : Ctx) :
    (fill rom n k).kbuf.length ≤ max k.kbuf.length (n + 3) := by
  rw [fill_eq_draws, draws_kbuf_length]; unfold Ctx.wordsDrawn; omega

/-- A draw leaves a block in place. -/
theorem drawWord_block (rom : Config.Rom) (k : Ctx) : (drawWord rom k).block ≠ none := by
  rcases drawWord_cases rom k with ⟨ks, cur, -, e⟩ | ⟨-, e⟩ <;> simp [e, drawFrom]

/-- Every decrypt keeps the promise of R25 on KBUF. -/
theorem decrypt_keeps_inv (rom : Config.Rom) (data : List Byte) (k : Ctx) (h : k.Inv) : (decrypt rom data k).2.Inv := by
  rw [decrypt_eq]
  have hl := fill_kbuf_length_le rom data.length k
  refine ⟨?_, ?_⟩
  · have := h.1
    simp [Ctx.dropKbuf]; omega
  · intro hb
    have hb' : (fill rom data.length k).block = none := hb
    rw [fill_eq_draws] at hb'
    have hz : k.wordsDrawn data.length = 0 := by
      by_contra hne
      obtain ⟨m, hm⟩ := Nat.exists_eq_succ_of_ne_zero hne
      rw [hm, Nat.succ_eq_add_one, draws_add, draws, draws] at hb'
      exact drawWord_block rom _ hb'
    rw [hz, draws] at hb'
    simp [Ctx.dropKbuf, fill_eq_draws, hz, draws, h.2 hb']

/-! ### the regeneration of a block -/

theorem regenSteps_append (rom : Config.Rom) (l1 l2 : List (Fin 16)) : ∀ k ks,
    regenSteps rom (l1 ++ l2) k ks = regenSteps rom l2 (regenSteps rom l1 k ks).1 (regenSteps rom l1 k ks).2 := by
  induction l1 with
  | nil => intro k ks; rfl
  | cons a l ih => intro k ks; exact ih _ _

/-- A keystream word is written by the step of its own position only (R128). -/
theorem regenSteps_ks_get (rom : Config.Rom) (l : List (Fin 16)) : ∀ k ks (p : Fin 16), p.rev ∉ l →
    (regenSteps rom l k ks).2.get p = ks.get p := by
  induction l with
  | nil => intro k ks p _; rfl
  | cons a l ih =>
    intro k ks p hp
    rw [List.mem_cons, not_or] at hp
    rw [regenSteps, ih _ _ _ hp.2, Vector.get_eq_getElem, Vector.get_eq_getElem]
    exact Vector.getElem_set_ne a.rev.isLt p.isLt
      (fun h => hp.1 (by have e : a.rev = p := Fin.ext h; rw [← e]; simp))

end Sys2Proof.Machine
end

