-- ==== Sys2Proof/Laws/Encoding.lean ====
section
/-! SUPPORT. The fields of a command word (R80) and the opcode map (R82). -/

namespace Sys2Proof

/-- A word is its three fields, side by side (R80). -/
theorem word_eq_fields (w : Word) : w = reservedField w ++ ctxField w ++ opcField w := by
  apply BitVec.eq_of_getLsbD_eq
  intro i hi
  show w.getLsbD i = (reservedField w ++ ctxField w ++ opcField w).getLsbD i
  simp only [reservedField, ctxField, opcField, BitVec.getLsbD_append, BitVec.getLsbD_extractLsb']
  split
  · rename_i h; simp [h]
  · split
    · rename_i h h2; simp at h; simp [show i - 8 < 4 from h2]; congr 1; omega
    · rename_i h h2; simp at h h2; simp [show i - 8 - 4 < 20 by omega]; congr 1; omega

/-- What the opcode map gives back has the OPC it was asked for, and the CTX where the command takes one. -/
theorem opcodeMap_eq_some {o : Byte} {c : CtxField} {i : Instr} (h : opcodeMap o c = some i) :
    i.opc = o ∧ (i.takesCtx = true → i.ctx = c) ∧ (i.takesCtx = false → i.ctx = 0#4) := by
  unfold opcodeMap at h
  repeat' split at h
  all_goals first | (cases h; simp_all [Instr.opc, Instr.ctx, Instr.takesCtx]) | cases h

end Sys2Proof
end

