-- ==== Sys2Proof/Laws/Host.lean ====
section
/-! SUPPORT. The host's side: what a write to DIN, a read of DOUT and a sequence of host accesses can do (R41, R92), and how
a host program goes on (R160). -/

namespace Sys2Proof.Machine

open Sys2Proof

/-! ### the two queues -/

/-- Everything a write to DIN can do (R41). -/
theorem State.pushDin_cases (b : Byte) (s : State) :
    (s.din.length < Config.bufcap ∧ s.pushDin b = { s with din := s.din ++ [b] }) ∨
    (Config.bufcap ≤ s.din.length ∧ s.pushDin b = { s with ovf := true }) := by
  unfold State.pushDin
  split
  · exact .inl ⟨by assumption, rfl⟩
  · exact .inr ⟨Nat.le_of_not_lt (by assumption), rfl⟩

/-- Everything a read of DOUT can do (R41). -/
theorem State.popDout_cases (s : State) :
    (s.dout = [] ∧ s.popDout = (0#32, s)) ∨
    (∃ b rest, s.dout = b :: rest ∧ s.popDout = (b.setWidth 32, { s with dout := rest })) := by
  unfold State.popDout
  split
  · exact .inl ⟨by assumption, rfl⟩
  · exact .inr ⟨_, _, by assumption, rfl⟩

/-! ### sequences of accesses -/

theorem drive_append (p : Config.Params) (a b : List HostEvent) (s : State) :
    drive p (a ++ b) s = drive p b (drive p a s) := by
  simp [drive]

/-- Writing a byte string to DIN, first byte first, with room for it. -/
theorem drive_din (p : Config.Params) (d : List Byte) : ∀ s : State, s.din.length + d.length ≤ Config.bufcap →
    drive p (d.map (fun b => HostEvent.write 6 (b.setWidth 32))) s
      = if d = [] then s else { s with din := s.din ++ d, rdata := none } := by
  induction d with
  | nil => intro s _; rfl
  | cons b d ih =>
    intro s h
    simp only [List.length_cons] at h
    have e : performWith p (.write 6 (b.setWidth 32)) s = { s with din := s.din ++ [b], rdata := none } := by
      rw [performWith_write _ _ _ _ (by decide)]
      have hb : BitVec.extractLsb' 0 8 (BitVec.setWidth 32 b) = b := by
        apply BitVec.eq_of_toNat_eq; simp [BitVec.extractLsb'_toNat]; exact b.isLt
      have hd : s.din.length < Config.bufcap := by omega
      simp [State.writeReg, State.pushDin, hd, hb]
    rw [List.map_cons]
    show drive p _ (performWith p _ s) = _
    rw [e, ih _ (by simp only [List.length_append, List.length_cons, List.length_nil]; omega)]
    split <;> simp_all

/-- Once OVF is set, or where the byte string has no room, writing it to DIN leaves OVF set (R41). -/
theorem drive_din_ovf (p : Config.Params) (d : List Byte) : ∀ s : State,
    s.ovf = true ∨ (d ≠ [] ∧ Config.bufcap < s.din.length + d.length) →
    (drive p (d.map (fun b => HostEvent.write 6 (b.setWidth 32))) s).ovf = true := by
  induction d with
  | nil => intro s h; simpa [drive] using h
  | cons b d ih =>
    intro s h
    show (drive p _ (performWith p _ s)).ovf = true
    rw [performWith_write _ _ _ _ (by decide)]
    apply ih
    simp only [State.writeReg]
    rcases State.pushDin_cases (BitVec.extractLsb' 0 8 (BitVec.setWidth 32 b)) { s with rdata := none } with
      ⟨hr, e⟩ | ⟨-, e⟩ <;> rw [e]
    · simp only [List.length_append, List.length_cons, List.length_nil] at h hr ⊢
      rcases h with h | ⟨-, h⟩
      · exact .inl h
      · exact .inr ⟨by rintro rfl; simp at h; omega, by omega⟩
    · exact .inl rfl

/-- Popping DOUT as often as it has bytes gives its bytes in order and changes nothing but DOUT and the value read. -/
theorem drainDout_all (p : Config.Params) (n : Nat) : ∀ s : State, s.dout.length = n →
    (drainDout p n s).1 = s.dout ∧
    (drainDout p n s).2 = { s with dout := [], rdata := (drainDout p n s).2.rdata } := by
  induction n with
  | zero =>
    intro s h
    rw [List.length_eq_zero_iff] at h
    refine ⟨by simp [drainDout, h], ?_⟩
    apply State.ext_fields <;> simp [drainDout, h]
  | succ n ih =>
    intro s h
    cases hd : s.dout with
    | nil => simp [hd] at h
    | cons b q =>
      have e : performWith p (.read 7) s = { s with dout := q, rdata := some (b.setWidth 32) } := by
        show ({ (State.popDout s).2 with rdata := some (State.popDout s).1 } : State) = _
        simp [State.popDout, hd]
      obtain ⟨h1, h2⟩ := ih { s with dout := q, rdata := some (b.setWidth 32) } (by simpa [hd] using h)
      simp only [drainDout, e]
      refine ⟨?_, h2⟩
      rw [h1]
      congr 1
      apply BitVec.eq_of_toNat_eq; simp [BitVec.extractLsb'_toNat]; exact b.isLt

/-! ### host programs -/

/-- A host program that ends well got past each of its parts. -/
theorem Session.andThen_eq_ok {α β : Type} {m : Session α} {f : α → Session β} {s t : State} {b : β}
    (h : m.andThen f s = (.ok b, t)) : ∃ a s', m s = (.ok a, s') ∧ f a s' = (.ok b, t) := by
  unfold Session.andThen at h
  split at h
  · exact ⟨_, _, by assumption, h⟩
  · cases h

/-- After a part that ends well a host program goes on with its value, from the state it left. -/
theorem Session.andThen_of_ok {α β : Type} {m : Session α} {f : α → Session β} {s s' : State} {a : α}
    (h : m s = (.ok a, s')) : m.andThen f s = f a s' := by
  unfold Session.andThen; rw [h]

/-- After a part that ends in an error a host program ends in it (R160). -/
theorem Session.andThen_of_error {α β : Type} {m : Session α} {f : α → Session β} {s s' : State} {e : HostError}
    (h : m s = (.error e, s')) : m.andThen f s = (.error e, s') := by
  unfold Session.andThen; rw [h]

@[simp] theorem slice_length (file : List Byte) (pos n : Nat) : (slice file pos n).length = min n (file.length - pos) := by
  simp [slice]

/-- Everything `take(k)` of R167 and R169 can answer. -/
theorem takeFile_cases (file : List Byte) (pos n : Nat) :
    (file.length < pos + n ∧ takeFile file pos n = .error .truncation) ∨
    (pos + n ≤ file.length ∧ takeFile file pos n = .ok (slice file pos n)) := by
  unfold takeFile
  split
  · exact .inl ⟨by assumption, rfl⟩
  · exact .inr ⟨by omega, rfl⟩

/-- Everything one command of the host can answer (R92, R280). -/
theorem issue_cases (p : Config.Params) (i : Instr) (arg0 : Option Word) (data : List Byte) (s : State) :
    (Config.bufcap < data.length ∧ issue p i arg0 data s = (.error (.code .bounds), s)) ∨
    (data.length ≤ Config.bufcap ∧ ∃ s1, s1 = drive p (Line.events { instr := i, arg0 := arg0, data := data }) s ∧
      ((s1.ovf = true ∧ issue p i arg0 data s = (.error .overflow, s1)) ∨
      (s1.ovf = false ∧ s1.err ≠ .ok ∧ issue p i arg0 data s = (.error (.code s1.err), s1)) ∨
      (s1.ovf = false ∧ s1.err = .ok ∧ ∃ v,
        issue p i arg0 data s = (.ok s1.dout, { s1 with dout := [], rdata := v })))) := by
  unfold issue
  by_cases hl : Config.bufcap < data.length
  · exact .inl ⟨hl, by rw [if_pos hl]⟩
  · refine .inr ⟨Nat.le_of_not_lt hl, _, rfl, ?_⟩
    rw [if_neg hl]
    generalize drive p (Line.events { instr := i, arg0 := arg0, data := data }) s = s1
    simp only []
    by_cases ho : s1.ovf = true
    · exact .inl ⟨ho, by rw [if_pos ho]⟩
    · rw [if_neg ho]
      have ho' : s1.ovf = false := by simpa using ho
      by_cases he : s1.err = .ok
      · obtain ⟨h1, h2⟩ := drainDout_all p _ s1 rfl
        exact .inr (.inr ⟨ho', he, _, by rw [if_pos he, h1, ← h2]⟩)
      · exact .inr (.inl ⟨ho', he, by rw [if_neg he]⟩)

/-- Reading RES0 or RES1 returns it and leaves every result register. -/
theorem readResult_res0 (p : Config.Params) (s : State) :
    readResult p 3 s = (.ok s.res0, { s with rdata := some s.res0 }) := rfl

theorem readResult_res1 (p : Config.Params) (s : State) :
    readResult p 4 s = (.ok s.res1, { s with rdata := some s.res1 }) := rfl

end Sys2Proof.Machine
end

