-- ==== Sys2Proof/Laws/Nkd.lean ====
section
/-! SUPPORT. The table of the key schedule (R183): what a swap and a round do to it. -/

namespace Sys2Proof.Machine

open Sys2Proof

/-- What a swap leaves at each place of the table. -/
theorem swapEntries_get (t : Vector Byte 256) (i j b : Byte) :
    (swapEntries t i j).get b.toFin
      = if b = j then t.get i.toFin else if b = i then t.get j.toFin else t.get b.toFin := by
  unfold swapEntries
  simp only [Vector.get_eq_getElem]
  have e : ∀ x : Byte, x.toFin.val = x.toNat := fun _ => rfl
  simp only [e, Vector.getElem_set, BitVec.toNat_inj]
  simp only [eq_comm]

/-- A round of R183 with the key byte it adds named. -/
theorem ksaRound_eq (k : List Byte) (st : Vector Byte 256 × Byte) (i kb : Byte) (h : k[i.toNat % k.length]? = some kb) :
    ksaRound k st i.toNat
      = (swapEntries st.1 i (st.2 + st.1.get i.toFin + kb), st.2 + st.1.get i.toFin + kb) := by
  unfold ksaRound
  have : byteAt k (i.toNat % k.length) = kb := by simp [byteAt, List.getD, h]
  simp [this]

theorem identityTable_get (b : Byte) : identityTable.get b.toFin = b := by
  unfold identityTable
  rw [Vector.get_eq_getElem, Vector.getElem_ofFn]

end Sys2Proof.Machine
end

