-- ==== Sys2Proof/Laws/Npc.lean ====
section
/-! SUPPORT. The byte loops of unit NPC: what the inner steps (R204), a refill (R208) and the inner loop of R209 compute,
from any cursor, carry byte and scratch buffers on. -/

namespace Sys2Proof.Machine

open Sys2Proof

/-! ### encryption -/

/-- The inner steps of one byte visit the cursor positions two apart (R204). -/
theorem encryptSteps_fst (key : Vector Byte 268) (n : Nat) : ∀ cur v : Byte,
    (encryptSteps key n cur v).1
      = (List.range n).foldl (fun v t => encryptStep key (cur + BitVec.ofNat 8 (2 * t)) v) v := by
  induction n with
  | zero => intro cur v; rfl
  | succ n ih =>
    intro cur v
    rw [encryptSteps, ih, List.range_succ_eq_map, List.foldl_cons, List.foldl_map]
    congr 1
    · funext v t
      congr 1
      rw [show BitVec.ofNat 8 (2 * t.succ) = 2#8 + BitVec.ofNat 8 (2 * t) by
        apply BitVec.eq_of_toNat_eq; simp [Nat.mul_succ]; omega]
      ac_rfl
    · simp

theorem encryptSteps_snd (key : Vector Byte 268) (n : Nat) : ∀ cur v : Byte,
    (encryptSteps key n cur v).2 = cur + BitVec.ofNat 8 (2 * n) := by
  induction n with
  | zero => intro cur v; simp [encryptSteps]
  | succ n ih =>
    intro cur v
    rw [encryptSteps, ih]
    apply BitVec.eq_of_toNat_eq
    simp; omega

@[simp] theorem encryptFrom_length (key : Vector Byte 268) (l : List Byte) :
    ∀ acc cur, (encryptFrom key acc cur l).length = l.length := by
  induction l with
  | nil => intros; rfl
  | cons b l ih => intro acc cur; simp [encryptFrom, ih]

@[simp] theorem encryptBytes_length (key : Vector Byte 268) (l : List Byte) :
    (encryptBytes key l).length = l.length := encryptFrom_length key l _ _

/-- One ciphertext byte: the cursor has moved by 2 * NKEY[0] for each byte before it, the carry byte holds the bytes up to
it (R203, R204). -/
theorem encryptFrom_getElem? (key : Vector Byte 268) (l : List Byte) : ∀ (acc cur : Byte) (i : Nat), i < l.length →
    (encryptFrom key acc cur l)[i]?
      = some (encryptSteps key (key[0]).toNat (cur + BitVec.ofNat 8 (2 * (key[0]).toNat * i))
          ((l.take (i + 1)).foldl (· ^^^ ·) acc)).1 := by
  induction l with
  | nil => intro acc cur i h; simp at h
  | cons b l ih =>
    intro acc cur i h
    cases i with
    | zero => simp [encryptFrom]
    | succ i =>
      rw [encryptFrom, List.getElem?_cons_succ, ih _ _ i (by simpa using h), encryptSteps_snd]
      rw [List.take_succ_cons, List.foldl_cons, BitVec.add_assoc, ← BitVec.ofNat_add,
        show 2 * (key[0]).toNat + 2 * (key[0]).toNat * i = 2 * (key[0]).toNat * (i + 1) by rw [Nat.mul_succ]; omega]

/-! ### decryption -/

/-- Each scratch buffer has room for every entry a refill writes (R208). -/
theorem le_scratchSize (key : Vector Byte 268) : (key[0]).toNat + 15 ≤ scratchSize key := by
  unfold scratchSize; rw [Nat.shiftRight_eq_div_pow]; omega

@[simp] theorem refill_sa_length (key : Vector Byte 268) (n : Nat) :
    ∀ t b, (refill key n t b).sa.length = b.sa.length := by
  induction n with
  | zero => intros; rfl
  | succ n ih => intro t b; simp [refill, ih]

@[simp] theorem refill_sb_length (key : Vector Byte 268) (n : Nat) :
    ∀ t b, (refill key n t b).sb.length = b.sb.length := by
  induction n with
  | zero => intros; rfl
  | succ n ih => intro t b; simp [refill, ih]

/-- A refill of n entries moves the index by 2n (R208). -/
theorem refill_idx (key : Vector Byte 268) (n : Nat) :
    ∀ t b, (refill key n t b).idx = b.idx + BitVec.ofNat 8 (2 * n) := by
  induction n with
  | zero => intro t b; simp [refill]
  | succ n ih =>
    intro t b
    rw [refill, ih]
    apply BitVec.eq_of_toNat_eq
    simp; omega

/-- Entry e of SA after a refill of the entries t to t + n - 1 (R208). -/
theorem byteAt_refill_sa (key : Vector Byte 268) (n : Nat) : ∀ (t : Nat) (b : Scratch) (e : Nat), t + n ≤ b.sa.length →
    byteAt (refill key n t b).sa e
      = if t ≤ e ∧ e < t + n then tableByte key (b.idx + BitVec.ofNat 8 (2 * (e - t))) else byteAt b.sa e := by
  induction n with
  | zero => intro t b e h; rw [refill, if_neg (by omega)]
  | succ n ih =>
    intro t b e h
    rw [refill, ih _ _ _ (by simp; omega)]
    by_cases h1 : t + 1 ≤ e ∧ e < t + 1 + n
    · rw [if_pos h1, if_pos (by omega)]
      congr 1
      apply BitVec.eq_of_toNat_eq
      simp; omega
    · rw [if_neg h1]
      by_cases h2 : e = t
      · subst h2
        rw [if_pos (by omega), byteAt, List.getD_eq_getElem?_getD, List.getElem?_set_self (by omega)]
        simp
      · rw [if_neg (by omega), byteAt, byteAt, List.getD_eq_getElem?_getD, List.getD_eq_getElem?_getD,
          List.getElem?_set_ne (fun h => h2 h.symm)]

/-- Entry e of SB after a refill of the entries t to t + n - 1 (R208). -/
theorem byteAt_refill_sb (key : Vector Byte 268) (n : Nat) : ∀ (t : Nat) (b : Scratch) (e : Nat), t + n ≤ b.sb.length →
    byteAt (refill key n t b).sb e
      = if t ≤ e ∧ e < t + n then tableByte key (b.idx + BitVec.ofNat 8 (2 * (e - t)) + 1#8) else byteAt b.sb e := by
  induction n with
  | zero => intro t b e h; rw [refill, if_neg (by omega)]
  | succ n ih =>
    intro t b e h
    rw [refill, ih _ _ _ (by simp; omega)]
    by_cases h1 : t + 1 ≤ e ∧ e < t + 1 + n
    · rw [if_pos h1, if_pos (by omega)]
      congr 2
      apply BitVec.eq_of_toNat_eq
      simp; omega
    · rw [if_neg h1]
      by_cases h2 : e = t
      · subst h2
        rw [if_pos (by omega), byteAt, List.getD_eq_getElem?_getD, List.getElem?_set_self (by omega)]
        simp
      · rw [if_neg (by omega), byteAt, byteAt, List.getD_eq_getElem?_getD, List.getD_eq_getElem?_getD,
          List.getElem?_set_ne (fun h => h2 h.symm)]

/-- The scratch buffers are all zero at command start (R208). -/
theorem byteAt_scratchStart (key : Vector Byte 268) (e : Nat) :
    byteAt (scratchStart key).sa e = 0#8 ∧ byteAt (scratchStart key).sb e = 0#8 := by
  unfold scratchStart byteAt
  simp only [List.getD_eq_getElem?_getD, List.getElem?_replicate]
  split <;> exact ⟨rfl, rfl⟩

/-- A refill leaves the entries it does not reach as they were: entries from NKEY[0] on stay 0 (R208). -/
theorem byteAt_refill_beyond (key : Vector Byte 268) (n t e : Nat) (b : Scratch) (ha : t + n ≤ b.sa.length)
    (hb : t + n ≤ b.sb.length) (he : t + n ≤ e) :
    byteAt (refill key n t b).sa e = byteAt b.sa e ∧ byteAt (refill key n t b).sb e = byteAt b.sb e := by
  rw [byteAt_refill_sa _ _ _ _ _ ha, byteAt_refill_sb _ _ _ _ _ hb, if_neg (by omega), if_neg (by omega)]
  exact ⟨rfl, rfl⟩

/-- The inner loop and the final pass of R209 as one loop over the positions t down to 0. -/
theorem decryptSteps_eq_foldr (b : Scratch) (t : Nat) : ∀ v : Byte,
    (decryptSteps b t v - byteAt b.sb 0) ^^^ byteAt b.sa 0
      = (List.range (t + 1)).foldr (fun p v => (v - byteAt b.sb p) ^^^ byteAt b.sa p) v := by
  induction t with
  | zero => intro v; rfl
  | succ t ih => intro v; rw [decryptSteps, ih, List.range_succ (n := t + 1), List.foldr_append]; rfl

@[simp] theorem decryptFrom_length (key : Vector Byte 268) (l : List Byte) :
    ∀ b acc, (decryptFrom key b acc l).length = l.length := by
  induction l with
  | nil => intros; rfl
  | cons c l ih => intro b acc; simp [decryptFrom, ih]

@[simp] theorem decryptBytes_length (key : Vector Byte 268) (l : List Byte) :
    (decryptBytes key l).length = l.length := decryptFrom_length key l _ _

end Sys2Proof.Machine
end

