-- ==== Sys2Proof/Laws/PerInstr.lean ====
section
/-! SUPPORT. The family `EncodingFields`: each command's word has its OPC in bits 7:0, its CTX in bits 11:8 and zeros above
(R80, R87), one lemma per constructor. -/

open Sys2Proof

/-- R80: the three fields of the command's word. -/
def Sys2Proof.Laws.EncodingFields.Statement (i : Instr) : Prop := encode i = 0#20 ++ i.ctx ++ i.opc

theorem Sys2Proof.Laws.EncodingFields.sysNop : Laws.EncodingFields.Statement .sysNop := rfl
theorem Sys2Proof.Laws.EncodingFields.sysClrerr : Laws.EncodingFields.Statement .sysClrerr := rfl
theorem Sys2Proof.Laws.EncodingFields.akdCsum : Laws.EncodingFields.Statement .akdCsum := rfl
theorem Sys2Proof.Laws.EncodingFields.akdHkey : Laws.EncodingFields.Statement .akdHkey := rfl
theorem Sys2Proof.Laws.EncodingFields.akdCkey : Laws.EncodingFields.Statement .akdCkey := rfl
theorem Sys2Proof.Laws.EncodingFields.aceInit (ctx : CtxField) : Laws.EncodingFields.Statement (.aceInit ctx) := by
  unfold Laws.EncodingFields.Statement; revert ctx; decide
theorem Sys2Proof.Laws.EncodingFields.aceDec (ctx : CtxField) : Laws.EncodingFields.Statement (.aceDec ctx) := by
  unfold Laws.EncodingFields.Statement; revert ctx; decide
theorem Sys2Proof.Laws.EncodingFields.nkdDerive : Laws.EncodingFields.Statement .nkdDerive := rfl
theorem Sys2Proof.Laws.EncodingFields.nkdLoad : Laws.EncodingFields.Statement .nkdLoad := rfl
theorem Sys2Proof.Laws.EncodingFields.npcEnc : Laws.EncodingFields.Statement .npcEnc := rfl
theorem Sys2Proof.Laws.EncodingFields.npcDec : Laws.EncodingFields.Statement .npcDec := rfl
end

