-- ==== Sys2Proof/Laws/Status.lean ====
section
/-! SUPPORT. The bits of the STATUS word a host reads (R42), one lemma for each byte of it. -/

namespace Sys2Proof.Machine

open Sys2Proof

/-- Which field of R42 a bit of STATUS belongs to. -/
theorem State.status_getLsbD (s : State) (i : Nat) :
    s.status.getLsbD i
      = if i < 8 then s.err.code.getLsbD i
        else if i < 16 then s.stickyByte.getLsbD (i - 8)
        else if i = 16 then s.nkvalid
        else if i < 24 then false
        else s.cvalidByte.getLsbD (i - 24) := by
  show (s.cvalidByte ++ 0#7 ++ BitVec.ofBool s.nkvalid ++ s.stickyByte ++ s.err.code).getLsbD i = _
  simp only [BitVec.getLsbD_append]
  by_cases h1 : i < 8
  · simp [h1]
  · by_cases h2 : i < 16
    · simp [h1, h2, show i - 8 < 8 by omega]
    · by_cases h3 : i = 16
      · subst h3; simp
      · by_cases h4 : i < 24
        · simp [h1, h2, h3, h4, show ¬ i - 8 < 8 by omega, show i - 8 - 8 - 1 < 7 by omega]; omega
        · simp [h1, h2, h3, h4, show ¬ i - 8 < 8 by omega, show ¬ i - 8 - 8 < 1 by omega, show ¬ i - 8 - 8 - 1 < 7 by omega]
          rw [show i - 8 - 8 - 1 - 7 = i - 24 by omega]

/-- STATUS[15:8], bit by bit (R42). -/
theorem State.stickyByte_bits (s : State) :
    s.stickyByte.getLsbD 0 = s.ovf ∧ s.stickyByte.getLsbD 1 = s.sCfg ∧ s.stickyByte.getLsbD 2 = false ∧
    s.stickyByte.getLsbD 3 = s.sBnd ∧ s.stickyByte.getLsbD 4 = false ∧ s.stickyByte.getLsbD 5 = false ∧
    s.stickyByte.getLsbD 6 = s.sIll ∧ s.stickyByte.getLsbD 7 = s.sNinit := by
  unfold State.stickyByte
  cases s.ovf <;> cases s.sCfg <;> cases s.sBnd <;> cases s.sIll <;> cases s.sNinit <;> decide

/-- STATUS[31:24], bit by bit (R42). -/
theorem State.cvalidByte_getLsbD (s : State) (c : Nat) (h : c < 8) : s.cvalidByte.getLsbD c = s.valid c := by
  show (BitVec.ofBool (s.valid 7) ++ BitVec.ofBool (s.valid 6) ++ BitVec.ofBool (s.valid 5) ++ BitVec.ofBool (s.valid 4)
    ++ BitVec.ofBool (s.valid 3) ++ BitVec.ofBool (s.valid 2) ++ BitVec.ofBool (s.valid 1)
    ++ BitVec.ofBool (s.valid 0)).getLsbD c = _
  simp only [BitVec.getLsbD_append]
  interval_cases c <;> simp

end Sys2Proof.Machine
end

