-- ==== Sys2Proof/Tests/Slice0.lean ====
section
/-! SUPPORT. Tests, with expected values from `spec/95_test_vectors.md` (named in each docstring) or by hand from the rule
named, and for every obligation with hypotheses a witness that meets them. -/

namespace Sys2Proof.Tests

open Sys2Proof Sys2Proof.Machine

-- one test after another: many kernel evaluations waiting at once would each hold a thread's stack
set_option Elab.async false

/-! ### test doubles (`95_test_vectors.md` section 2) -/

/-- ROM-A. -/
def romA : Config.Rom
  | .t0, i => i.setWidth 32
  | .t1, i => i.setWidth 32 <<< 8
  | .t2, i => i.setWidth 32 <<< 16
  | .t3, i => i.setWidth 32 <<< 24
  | .multable, i => i.setWidth 32 * 0x01010101#32
  | .divtable, i => (i.setWidth 32 <<< 24) ||| (i.setWidth 32 ^^^ 0xFF#32)

/-- ROM-A, HDR-T and FIELDS-T. -/
def doubles : Config.Params where
  rom := romA
  nkhdr := #v[3, 0, 0, 0, 2, 0, 0, 0, 0, 0, 0, 0]
  nkfields := fun seed => ((seed.extractLsb' 4 16).toFin, (seed.extractLsb' 20 4).toFin)

/-- K0. -/
def keyK0 : List Byte := [0, 1, 2, 3, 4, 5, 6, 7, 8, 9, 10, 11, 12, 13, 14, 15]

/-- BLOB-T. -/
def blobT : List Byte := (List.range 64).map (fun i => BitVec.ofNat 8 (7 * i + 3))

/-- The first 32 bytes of KEY-T (V-NKD-1), then zeros: all that a payload of three bytes reads. -/
def keyT : Vector Byte 268 :=
  (#v[0x03, 0x00, 0x00, 0x00, 0x02, 0x00, 0x00, 0x00, 0x00, 0x00, 0x00, 0x81, 0x81, 0xA5, 0x9B, 0x34,
     0xDE, 0x5B, 0x20, 0x7F, 0xF8, 0x24, 0x56, 0xD8, 0x92, 0x16, 0xF2, 0xA0, 0xFE, 0x70, 0x6F, 0x15] : Vector Byte 32)
    ++ (Vector.replicate 236 0 : Vector Byte 236)

/-- "a.dat" then SECRET-T. -/
def combinedT : List Byte := [0x61, 0x2E, 0x64, 0x61, 0x74, 0x54, 0x57, 0x53, 0x45, 0x43, 0x52, 0x45, 0x54]

/-- The reset state with an operand, a scalar and a network key. -/
def given (data : List Byte) (arg0 : Word := 0) (key : Option (Vector Byte 268) := none) : State :=
  { State.reset with din := data, arg0 := arg0, nkey := key }

/-- A context freshly initialised from K0, with an operand. -/
def fresh (data : List Byte) : State := { cmdAceInit doubles 0#4 (given keyK0) with din := data }

/-- A context with three zero bytes in KBUF (the double of V-DEC-9). -/
def zeroCtx : Ctx where
  core := { x := Vector.replicate 16 0, a := 0, b := 0 }
  block := some { ks := Vector.replicate 16 0, cur := 1 }
  kbuf := [0, 0, 0]

/-- The reset state with `zeroCtx` in context 1 and an operand. -/
def primed (data : List Byte) : State := { given data with ctxs := #v[none, some zeroCtx] }

/-- The reset state with host events to come. -/
def facing (events : List HostEvent) : State := { State.reset with pending := events }

/-! ### well-formedness and decoding (words written out from the fields of R80 and the map of R82) -/

theorem test_wf_refuses_init_of_context_2 : (Instr.aceInit 2#4).wf = false := by decide
theorem test_wf_refuses_dec_of_context_2 : (Instr.aceDec 2#4).wf = false := by decide
theorem test_wf_accepts_context_1 : (Instr.aceDec 1#4).wf = true := by decide

theorem test_decode_sysNop : decode 0b00000000000000000000_0000_00000000#32 = .ok .sysNop := by decide
theorem test_decode_sysClrerr : decode 0b00000000000000000000_0000_00000001#32 = .ok .sysClrerr := by decide
theorem test_decode_akdCsum : decode 0b00000000000000000000_0000_00010000#32 = .ok .akdCsum := by decide
theorem test_decode_akdHkey : decode 0b00000000000000000000_0000_00010001#32 = .ok .akdHkey := by decide
theorem test_decode_akdCkey : decode 0b00000000000000000000_0000_00010010#32 = .ok .akdCkey := by decide
theorem test_decode_aceInit : decode 0b00000000000000000000_0001_00100000#32 = .ok (.aceInit 1#4) := by decide
theorem test_decode_aceDec : decode 0b00000000000000000000_0001_00100001#32 = .ok (.aceDec 1#4) := by decide
theorem test_decode_nkdDerive : decode 0b00000000000000000000_0000_00110000#32 = .ok .nkdDerive := by decide
theorem test_decode_nkdLoad : decode 0b00000000000000000000_0000_00110001#32 = .ok .nkdLoad := by decide
theorem test_decode_npcEnc : decode 0b00000000000000000000_0000_00110010#32 = .ok .npcEnc := by decide
theorem test_decode_npcDec : decode 0b00000000000000000000_0000_00110011#32 = .ok .npcDec := by decide

/-- P4 line 4. -/
theorem test_decode_reserved_bit : decode 0x00001020#32 = .error .reservedBits := by decide
/-- P4 line 3. -/
theorem test_decode_unknown_opcode : decode 0x00000099#32 = .error .unknownOpcode := by decide
/-- P4 line 5. -/
theorem test_decode_context_not_zero : decode 0x00000110#32 = .error .ctxNotZero := by decide

/-! ### the interface -/

/-- R92, R102, with V-AKD-2: the placed word is the next command run. -/
theorem test_placed_word_runs :
    step (State.reset.withFetchWord 32 0x10)
      = .next { State.reset with res0 := 30, res1 := 33, cmdIndex := 1 } := by rfl

/-- P4 line 2: CTX = 2 is IllegalCommand, seen in STATUS. -/
theorem test_status_after_illegal_context :
    (launchWith doubles 0x00000221#32 (given [0])).status = 0x00004006#32 := by decide +kernel

/-- R41: the read of an empty DOUT returns 0. -/
theorem test_empty_dout_reads_zero : State.reset.popDout = (0#32, State.reset) := by decide

/-- R89: the first line of P4, as text. -/
theorem test_line_text : Line.text ⟨.aceDec 0#4, none, [0]⟩ = "ACE.DEC c0, [00]" := by decide +kernel

/-! ### commands -/

/-- P4 line 14. -/
theorem test_nop_empties_din : (cmdSysNop (given [1, 2, 3])).din = [] := by decide

/-- P4 line 13. -/
theorem test_clrerr_clears_sticky :
    (cmdSysClrerr { given [] with sIll := true, sCfg := true, err := .formatMismatch, nkey := some keyT }).status
      = 0x00010000#32 := by decide +kernel

/-- V-AKD-1. -/
theorem test_csum_a_dat :
    (let t := cmdAkdCsum (given [0x61, 0x2E, 0x64, 0x61, 0x74]); (t.res0, t.res1, t.res2))
      = (174#32, 129#32, 1368#32) := by decide +kernel
/-- V-AKD-3. -/
theorem test_csum_high_bytes :
    (let t := cmdAkdCsum (given [0xFF, 0xFF, 0xFF]); (t.res0, t.res1, t.res2))
      = (171#32, 208#32, 2295#32) := by decide +kernel

/-- V-AKD-4. -/
theorem test_hkey_combined :
    (cmdAkdHkey (given combinedT)).dout
      = [0x61, 0x2F, 0x66, 0x64, 0x78, 0x59, 0x5D, 0x5A, 0x4D, 0x4C, 0x5C, 0x50, 0x60, 0x6E, 0x3C, 0x73] := by
  decide +kernel
/-- V-AKD-8. -/
theorem test_hkey_empty : (cmdAkdHkey (given [])).status = 0x00000201#32 := by decide +kernel

/-- V-AKD-9. -/
theorem test_ckey_combined :
    (cmdAkdCkey (given combinedT 303)).dout
      = [0xE8, 0x24, 0x92, 0x5F, 0x27, 0x55, 0x90, 0xFD, 0x14, 0x93, 0x03, 0x67, 0xB4, 0x69, 0x92, 0xD7] := by
  decide +kernel
/-- V-AKD-15. -/
theorem test_ckey_backward :
    (cmdAkdCkey (given [1, 2, 3] 1)).dout
      = [0x04, 0x04, 0x0E, 0x07, 0x07, 0x11, 0x0A, 0x0A, 0x14, 0x0D, 0x0D, 0x17, 0x10, 0x10, 0x1A, 0x13] := by
  decide +kernel

/-- V-ACE-3. -/
theorem test_init_accumulators :
    ((fresh []).ctxAt 0#4).map (fun k => (k.core.a, k.core.b, k.core.x[0], k.core.x[15], k.cur))
      = some (0xF2080B82#32, 0xE62E000E#32, 0x3BF75EEC#32, 0x2CB05C2E#32, 16) := by decide +kernel
/-- V-KW, key bytes 12 34 A6 78 and 01 80 02 03. -/
theorem test_key_word_sign_extension :
    keyWord 0x12 0x34 0xA6 0x78 = 0xFFFFA678#32 ∧ keyWord 0x01 0x80 0x02 0x03 = 0xFF800203#32 := by decide +kernel

/-- V-DEC-4. -/
theorem test_dec_borrow :
    (let t := cmdAceDec doubles 0#4 (fresh [0, 1]); (t.dout, (t.ctxAt 0#4).map (fun k => (k.cur, k.kbuf))))
      = ([0x92, 0xAE], some (1, [0x62, 0xB4])) := by decide +kernel
/-- V-F-2 and V-SB-1, ROM-A. -/
theorem test_primitives :
    feedback romA 0x12345678 0x9ABCDEF0 [0x0F0F0F0F, 0xFFFFFFFF] = 0x262E2633#32 ∧
    sbox romA 0xDEADBEEF = 0xDEADBEEF#32 := by decide +kernel

/-- V-NKD-1: bytes 11 to 15 of the derived key. -/
theorem test_derive_key :
    (let t := cmdNkdDerive doubles (given blobT 0x00500123); (t.res0, t.res1, (t.dout.drop 11).take 5))
      = (18#32, 5#32, [0x81, 0x81, 0xA5, 0x9B, 0x34]) := by decide +kernel
/-- V-NKD-2, the row 005003D0. -/
theorem test_derive_bounds :
    (cmdNkdDerive doubles (given blobT 0x005003D0)).status = 0x00000803#32 := by decide +kernel

/-- P4 line 11. -/
theorem test_load_sets_nkvalid : (cmdNkdLoad (given keyT.toList)).status = 0x00010000#32 := by decide +kernel
/-- V-NKD-3, 267 bytes. -/
theorem test_load_short_key : (cmdNkdLoad (given (List.replicate 267 0))).err = .configuration := by decide +kernel

/-- V-NPC-1. -/
theorem test_enc_frame :
    (cmdNpcEnc (given [0x48, 0x69, 0x21] 7 (some keyT))).dout = [0xAA, 0x00, 0x04, 0x07, 0x00, 0x6A, 0x23, 0xC6] := by
  decide +kernel
/-- V-NPC-2. -/
theorem test_enc_empty :
    (let t := cmdNpcEnc (given [] 0x1FF (some keyT)); (t.dout, t.res1)) = ([0xAA, 0x00, 0x01, 0xFF, 0x00], 0xFF#32) := by
  decide +kernel

/-- V-NPC-7: trailing bytes. -/
theorem test_dec_trailing_bytes :
    (cmdNpcDec (given [0xAA, 0x00, 0x04, 0x07, 0x00, 0x6A, 0x23, 0xC6, 0x99, 0x98] 0 (some keyT))).dout
      = [0x48, 0x69, 0x21] := by decide +kernel
/-- V-NPC-6: one byte short. -/
theorem test_dec_short_frame :
    (cmdNpcDec (given [0xAA, 0x00, 0x04, 0x07, 0x00, 0x6A, 0x23] 0 (some keyT))).err = .bounds := by decide +kernel

/-! ### witnesses: concrete states that meet the hypotheses of each obligation -/

theorem witness_IllegalWordsRaiseIllegalCommand :
    (facing [.write 0 0x220]).pending = .write 0 0x220#32 :: [] ∧ 0x220#32 ∉ legalWords ∧ 0x1000#32 ∉ legalWords ∧
    0x02#32 ∉ legalWords := by decide

theorem witness_StepRunsTheDecodedCommand :
    (facing [.write 0 0xF21, .reset]).pending = .write 0 0xF21#32 :: [.reset] ∧ decode 0xF21#32 = .ok (.aceDec 15#4) := by
  decide

theorem witness_LineAccessesRunTheCommand :
    State.reset.din = [] ∧ (List.replicate 131072 (0 : Byte)).length ≤ Config.bufcap :=
  ⟨rfl, List.length_replicate.le⟩

theorem witness_FailedCommandChangesNothingElse :
    exec .akdHkey State.reset = .next (cmdAkdHkey State.reset) ∧ (cmdAkdHkey State.reset).err ≠ .ok :=
  ⟨rfl, by decide⟩

theorem witness_FailedCommandChangesNothingElse_launch :
    launch 0x00000099#32 State.reset = .next (State.reset.beginLaunch.raiseError .illegalCommand) ∧
    (State.reset.beginLaunch.raiseError .illegalCommand).err ≠ .ok := ⟨rfl, by decide⟩

theorem witness_CommandFrame :
    exec .sysNop (given [1]) = .next (cmdSysNop (given [1])) ∧ Instr.sysNop.usesContext = false ∧
    Instr.sysNop ≠ .nkdDerive ∧ Instr.sysNop ≠ .nkdLoad ∧ Instr.sysNop.writesResults = false ∧
    Instr.sysNop ≠ .sysClrerr ∧ (cmdSysNop (given [1])).err = .ok := ⟨rfl, by decide⟩

theorem witness_CommandFrame_res2 :
    exec .npcEnc (given [1] 7 (some keyT)) = .next (cmdNpcEnc (given [1] 7 (some keyT))) ∧
    (Instr.npcEnc = .npcEnc ∨ Instr.npcEnc = .npcDec ∨ Instr.npcEnc = .nkdDerive) := ⟨rfl, by decide⟩

theorem witness_UnitsShareNoCipherState_other_units :
    exec .nkdLoad (given [1]) = .next (cmdNkdLoad (given [1])) ∧ Instr.nkdLoad.usesContext = false := ⟨rfl, by decide⟩

theorem witness_UnitsShareNoCipherState_no_network_key :
    exec (.aceDec 1#4) (primed [5]) = .next (cmdAceDec Config.hw 1#4 (primed [5])) ∧
    (Instr.aceDec 1#4).usesNetworkKey = false := ⟨rfl, by decide⟩

theorem witness_UnitsShareNoCipherState_other_context :
    exec (.aceInit 1#4) (given keyK0) = .next (cmdAceInit Config.hw 1#4 (given keyK0)) ∧
    exec (.aceDec 1#4) (primed [5]) = .next (cmdAceDec Config.hw 1#4 (primed [5])) ∧
    (0#4 : CtxField).toNat < Config.nctx ∧ (1#4 : CtxField) ≠ 0#4 := ⟨rfl, rfl, by decide⟩

theorem witness_CsumWritesTheOffsets : (given [0xFF]).din.length ≤ Config.bufcap := by decide

theorem witness_HkeyCyclesTheString :
    (given [7, 9]).din ≠ [] ∧ 15 < 16 ∧ (given [7, 9]).din[15 % (given [7, 9]).din.length]? = some 9#8 ∧
    (given []).din = [] := by decide

theorem witness_CkeyCyclesBackward :
    (given [7, 9]).din ≠ [] ∧ 15 < 16 ∧ (given [7, 9]).din[1]? = some 9#8 ∧
    (((given [7, 9]).din.length : Int) ∣ (((given [7, 9]).arg0.toNat : Int) - ((15 : Nat) : Int)) - ((1 : Nat) : Int)) ∧
    (given []).din = [] := by decide

theorem witness_KeyWordKeepsTheSignExtension :
    (0x7F#8).msb = false ∧ (0x80#8).msb = true ∧ (0xFF#8).msb = true := by decide

theorem witness_SeedingPattern : 3 < 4 := by decide

theorem witness_MixingPassFollowsTheSchedule :
    (0 < 32 ∧ (15 : Fin 16).val = 15 - 0 % 16) ∧ 31 < 32 ∧ (0 : Fin 16).val = 15 - 31 % 16 := by decide

theorem witness_RegenerateBlockFollowsTheSchedule :
    (15 : Fin 16).val = 15 - (0 : Fin 16).val ∧ (0 : Fin 16).val = 15 - (15 : Fin 16).val := by decide

theorem witness_AceInitBuildsAFreshContext : (1#4).toNat < 2 ∧ (given keyK0).din.length = 16 := by decide

theorem witness_AceCommandsRefuseBadOperands :
    ((1#4).toNat < 2 ∧ (given [1]).din.length ≠ 16) ∧ 2 ≤ (2#4).toNat ∧ 2 ≤ (15#4).toNat := by decide

theorem witness_AceDecSubtractsTheNextKeystreamBytes :
    (1#4).toNat < 2 ∧ (primed [5, 6, 7, 8]).ctxAt 1#4 = some zeroCtx := by decide +kernel

theorem witness_AceDecOfNothing :
    (1#4).toNat < 2 ∧ (primed []).din = [] ∧ (primed []).ctxAt 1#4 = some zeroCtx ∧ (primed []).ctxAt 0#4 = none := by
  decide +kernel

theorem witness_SubtractionIsBorrowSerial : ([1, 2] : List Byte).length = ([3, 4] : List Byte).length := by decide

theorem witness_ZeroKeystreamReturnsTheCiphertext :
    (1#4).toNat < 2 ∧ (primed [5, 6, 7]).ctxAt 1#4 = some zeroCtx ∧
    (zeroCtx.upcoming Config.hw.rom (primed [5, 6, 7]).din.length).take (primed [5, 6, 7]).din.length
      = List.replicate (primed [5, 6, 7]).din.length 0#8 := ⟨by decide, by decide +kernel, rfl⟩

theorem witness_UninitialisedUseIsRefused :
    (1#4).toNat < 2 ∧ State.reset.valid (1#4).toNat = false ∧ State.reset.nkvalid = false := by decide

theorem witness_DeriveStoresAndReturnsTheKey : ∃ offset size : Nat,
    offset = (Config.hw.nkfields (given blobT).arg0).1.val ∧ size = (Config.hw.nkfields (given blobT).arg0).2.val :=
  ⟨_, _, rfl, rfl⟩

theorem witness_DeriveWithAnyParameters :
    doubles.nkfields (given blobT 0x005003B0).arg0 = (59, 5) ∧ (5 : Fin 16) ≠ 0 ∧
    (59 : Fin 65536).val + (5 : Fin 16).val ≤ (given blobT 0x005003B0).din.length := by decide +kernel

theorem witness_DerivedKeyLayout : 10 < 11 ∧ 255 < 256 := by decide

theorem witness_KsaFollowsTheRounds :
    ([7, 9] : List Byte) ≠ [] ∧ ([7, 9] : List Byte)[(255#8).toNat % ([7, 9] : List Byte).length]? = some 9#8 ∧
    (3#8) ≠ 255#8 := by decide

theorem witness_LoadStoresTheKeyAsGiven :
    (given keyT.toList).din.length = 268 ∧ (given [1]).din.length ≠ 268 := by decide +kernel

theorem witness_EncFramesTheCiphertext :
    (given (List.replicate 65534 0) 7 (some keyT)).nkey = some keyT ∧ keyT[0] ≠ 0#8 ∧
    (given (List.replicate 65534 0) 7 (some keyT)).din.length ≤ 65534 := ⟨rfl, by decide +kernel, List.length_replicate.le⟩

theorem witness_CiphertextByteClosedForm : 1 < ([5, 6] : List Byte).length := by decide

theorem witness_DecAcceptsAWellFormedFrame :
    (given [0xAA, 0, 3, 7, 0x55, 1, 2, 9] 0 (some keyT)).nkey = some keyT ∧ keyT[0] ≠ 0#8 ∧
    (keyT[4]).toNat < 16 * (((keyT[0]).toNat + 30) / 16) ∧
    (given [0xAA, 0, 3, 7, 0x55, 1, 2, 9] 0 (some keyT)).din = [0xAA#8, 0, 3, 7, 0x55] ++ [1, 2] ++ [9] ∧
    256 * (0#8).toNat + (3#8).toNat = ([1, 2] : List Byte).length + 1 :=
  ⟨rfl, by decide +kernel, by decide +kernel, rfl, rfl⟩

/-- KEY-T with byte 4 changed to 3, the buffer position past the refill (V-NPC-11). -/
def keyPastRefill : Vector Byte 268 := keyT.set 4 3

theorem witness_PlaintextByteClosedForm :
    keyT[0] ≠ 0#8 ∧ (keyT[4]).toNat < 16 * (((keyT[0]).toNat + 30) / 16) ∧
    keyPastRefill[0] ≠ 0#8 ∧ (keyPastRefill[4]).toNat < 16 * (((keyPastRefill[0]).toNat + 30) / 16) ∧
    (keyPastRefill[0]).toNat ≤ (keyPastRefill[4]).toNat ∧ ([5, 6] : List Byte)[1]? = some 6#8 := by decide +kernel

theorem witness_MissingMarkerIsNotAPacket :
    (given [] 0 (some keyT)).nkvalid = true ∧ (given [] 0 (some keyT)).din.head? ≠ some 0xAA#8 ∧
    (given [0xAB, 0, 1, 0, 0] 0 (some keyT)).din.head? ≠ some 0xAA#8 := by decide

theorem witness_MissingMarkerIsNotAPacket_only_there :
    exec .npcDec (given [] 0 (some keyT)) = .next (cmdNpcDec (given [] 0 (some keyT))) ∧
    (cmdNpcDec (given [] 0 (some keyT))).err = .formatMismatch := ⟨rfl, by decide⟩

theorem witness_DecInvertsEnc :
    (given [1] 7 (some keyT)).nkey = some keyT ∧ (keyT[4]).toNat + 1 = (keyT[0]).toNat ∧
    (given [1] 7 (some keyT)).din.length ≤ 65534 := ⟨rfl, by decide +kernel, by decide⟩

theorem witness_ReframingReproducesTheHeader :
    exec .npcDec (given [0xAA, 0, 2, 7, 0x55, 1, 9] 0 (some keyT))
      = .next (cmdNpcDec (given [0xAA, 0, 2, 7, 0x55, 1, 9] 0 (some keyT))) ∧
    (cmdNpcDec (given [0xAA, 0, 2, 7, 0x55, 1, 9] 0 (some keyT))).err = .ok := ⟨rfl, by decide +kernel⟩

theorem witness_HostAccessTable_writes :
    (facing [.write 1 5]).pending = .write 1 5#32 :: [] ∧
    ((facing [.write 6 5]).pending = .write 6 5#32 :: [] ∧ (facing [.write 6 5]).din.length < Config.bufcap) ∧
    (facing [.write 10 5]).pending = .write 10 5#32 :: [] ∧ (10 ≠ 0 ∧ 10 ≠ 1 ∧ 10 ≠ 6) ∧ (2 ≠ 0 ∧ 2 ≠ 1 ∧ 2 ≠ 6) := by
  decide

theorem witness_HostAccessTable_full_queue :
    Config.bufcap ≤ { facing [.write 6 5] with din := List.replicate 131072 0 }.din.length :=
  List.length_replicate.ge

theorem witness_HostAccessTable_reads :
    ((facing [.read 7]).pending = .read 7 :: [] ∧ { facing [.read 7] with dout := [9, 8] }.dout = 9#8 :: [8]) ∧
    (facing [.read 7]).dout = [] ∧ ((facing [.read 10]).pending = .read 10 :: [] ∧ 10 ≠ 7) ∧ State.reset.pending = [] := by
  decide

theorem witness_StatusLayout : 7 < 8 := by decide

theorem witness_ResetClearsTheMachine : (facing [.reset, .read 2]).pending = .reset :: [.read 2] := by decide

theorem witness_ValidBitsAreSetOnce_context :
    step { given keyK0 with pending := [.write 0 (encode (.aceInit 1#4))] }
      = .next (cmdAceInit Config.hw 1#4 { given keyK0 with cmdIndex := 1 }) ∧
    ({ given keyK0 with pending := [.write 0 (encode (.aceInit 1#4))] } : State).pending.head? ≠ some .reset ∧
    ({ given keyK0 with pending := [.write 0 (encode (.aceInit 1#4))] } : State).valid (1#4).toNat = false ∧
    (cmdAceInit Config.hw 1#4 { given keyK0 with cmdIndex := 1 }).valid (1#4).toNat = true :=
  ⟨rfl, by decide, by decide, rfl⟩

/-- An NKD.LOAD about to be launched with KEY-T in the input queue. -/
def loading : State := { given keyT.toList with pending := [.write 0 (encode .nkdLoad)] }

theorem witness_ValidBitsAreSetOnce_network_key :
    step loading = .next (runWith Config.hw .nkdLoad (State.beginLaunch { loading with pending := [], rdata := none })) ∧
    loading.pending.head? ≠ some .reset ∧ loading.nkvalid = false ∧
    (runWith Config.hw .nkdLoad (State.beginLaunch { loading with pending := [], rdata := none })).nkvalid = true :=
  ⟨(fun (s : State) (h : s.pending = [.write 0 (encode .nkdLoad)]) => (step_cons s _ [] h).trans rfl :
      ∀ s : State, s.pending = [.write 0 (encode .nkdLoad)] →
        step s = .next (runWith Config.hw .nkdLoad (State.beginLaunch { s with pending := [], rdata := none })))
      loading rfl,
    by decide, rfl, by decide +kernel⟩

theorem witness_ValidBitsAreSetOnce_kept :
    step { primed [] with nkey := some keyT } = .next { primed [] with nkey := some keyT } ∧
    ({ primed [] with nkey := some keyT } : State).pending.head? ≠ some .reset ∧
    ({ primed [] with nkey := some keyT } : State).valid 1 = true ∧
    ({ primed [] with nkey := some keyT } : State).nkvalid = true := ⟨rfl, by decide, by decide, rfl⟩

/-- A state in which OVF and every sticky bit is set and a SYS.NOP is launched next. -/
def stickyState : State :=
  { facing [.write 0 0] with ovf := true, sCfg := true, sBnd := true, sIll := true, sNinit := true }

theorem witness_StickyBitsAreSticky :
    step stickyState = .next { stickyState with pending := [], cmdIndex := 1 } ∧
    stickyState.pending.head? ≠ some .reset ∧ stickyState.pending.head? ≠ some (.write 0 (encode .sysClrerr)) ∧
    stickyState.ovf = true ∧ stickyState.sCfg = true ∧ stickyState.sBnd = true ∧ stickyState.sIll = true ∧
    stickyState.sNinit = true := ⟨rfl, by decide⟩

theorem witness_EveryStepKeepsTheInvariant : (primed []).Inv ∧ step (primed []) = .next (primed []) := by
  refine ⟨⟨by decide, by decide, by decide, ?_⟩, rfl⟩
  intro c k h
  have hc : ∀ c : CtxField, (primed []).ctxAt c = none ∨ (primed []).ctxAt c = some zeroCtx := by decide +kernel
  rcases hc c with e | e <;> rw [e] at h <;> cases h
  exact ⟨by decide, by decide⟩

/-- A file of one entry with an empty name, for the empty filename and the secret "A" (ROM-A): the header at byte 30, the
entry table at byte 63. -/
def archiveFile : List Byte :=
  List.replicate 30 0 ++ [0xD4, 0x71, 0x08, 0x02, 0xBE, 0x2E, 0xEA, 0x21, 0x10] ++ List.replicate 24 0
  ++ [0xE6, 0x51, 0xAD, 0xBF, 0x4B, 0x94, 0x65, 0x83, 0x7E, 0x5D, 0xAC, 0xA1, 0xD3, 0x76, 0x3F, 0x4A, 0xDD, 0xA0, 0x07, 0x36,
      0x35, 0xF3, 0xAF, 0x93, 0x28, 0x22, 0xB9, 0x84, 0x89, 0xEA, 0x89, 0xE3, 0x60, 0x87, 0x73, 0x62, 0x44, 0x0A, 0x3C, 0xA3]

/-- Does a host program end well, with a value that passes the test? -/
def endsWith {α : Type} (test : α → Bool) (r : Except HostError α × State) : Bool :=
  match r.1 with
  | .ok a => test a
  | .error _ => false

/-- Does a host program end with this error? -/
def failsWith {α : Type} (e : HostError) (r : Except HostError α × State) : Bool :=
  match r.1 with
  | .ok _ => false
  | .error x => decide (x = e)

theorem witness_ArchiveNeedsAnIntactHeader :
    endsWith (fun es => es.length == 1) (readArchive doubles [0x41] 0#4 1#4 [] archiveFile State.reset) = true ∧
    State.reset.din = [] := by decide +kernel

/-- The state after the AKD.CSUM of the empty filename and the reads of RES0 and RES1. -/
def located : State :=
  (readResult doubles 4 (readResult doubles 3 (issue doubles .akdCsum none [] State.reset).2).2).2

theorem witness_ArchiveOutcomeFollowsTheHeader :
    endsWith (fun out => out == []) (issue doubles .akdCsum none [] State.reset) = true ∧
    endsWith (fun r => r == 30#32) (readResult doubles 3 (issue doubles .akdCsum none [] State.reset).2) = true ∧
    endsWith (fun r => r == 33#32)
      (readResult doubles 4 (readResult doubles 3 (issue doubles .akdCsum none [] State.reset).2).2) = true ∧
    (archiveFile.take 38).length < 30 + 9 ∧ 30 + 9 ≤ (archiveFile.take 39).length ∧
    endsWith (fun h => h.intact) (readHeader doubles 0#4 [0x41] archiveFile 30 located) = true ∧
    endsWith (fun h => !h.intact) (readHeader doubles 0#4 [0x41] (archiveFile.set 30 0) 30 located) = true := by
  decide +kernel

theorem witness_ArchiveOutcomeFollowsTheHeader_table :
    endsWith (fun k => k.length == 16) (issue doubles .akdCkey (some (30#32 + 33#32)) [0x41] State.reset) = true ∧
    endsWith (fun out => out == []) (issue doubles (.aceInit 1#4) none keyK0
      (issue doubles .akdCkey (some (30#32 + 33#32)) [0x41] State.reset).2) = true := by decide +kernel

/-- An entry whose name has one character, under the zero keystream of `zeroCtx` for its first field. -/
def entryFile : List Byte := [1, 0, 0, 0] ++ List.replicate 38 7

theorem ready_primed : (primed []).ReadyFor 1#4 zeroCtx := ⟨rfl, rfl, by decide, by decide +kernel⟩

theorem witness_EntryReadsItsFieldsInOrder :
    (primed []).ReadyFor 1#4 zeroCtx ∧ 1 = nameChars doubles.rom entryFile 0 zeroCtx ∧ 2 * 1 ≤ Config.bufcap ∧
    0 + 40 + 2 * 1 ≤ entryFile.length := ⟨ready_primed, by decide +kernel⟩

theorem witness_EntriesAreReadInOrder :
    endsWith (fun r => r.2 == 42) (readEntry doubles 1#4 entryFile 0 (primed [])) = true ∧
    failsWith (.code .truncation) (readEntries doubles 1#4 entryFile 1 42 (readEntry doubles 1#4 entryFile 0 (primed [])).2) = true ∧
    endsWith (fun es => es == [])
      (readEntries doubles 1#4 entryFile 0 42 (readEntry doubles 1#4 entryFile 0 (primed [])).2) = true ∧
    failsWith (.code .truncation) (readEntry doubles 1#4 [] 0 (primed [])) = true := by decide +kernel

theorem witness_TruncatedFieldStopsTheWalk :
    ([1, 2, 3] : List Byte).length < 0 + 4 ∧
    (primed []).ReadyFor 1#4 zeroCtx ∧ 0 + 4 ≤ (entryFile.take 41).length ∧
    1 = nameChars doubles.rom (entryFile.take 41) 0 zeroCtx ∧ 2 * 1 ≤ Config.bufcap ∧
    (entryFile.take 41).length < 0 + 40 + 2 * 1 ∧ 2 ≠ 0 ∧ entryFile.length < 0 + 40 * 2 :=
  ⟨by decide, ready_primed, by decide +kernel⟩

theorem witness_TruncatedFieldStopsTheWalk_long_name :
    (primed []).ReadyFor 1#4 zeroCtx ∧ 0 + 4 ≤ ([1, 0, 1, 0] : List Byte).length ∧
    65537 = nameChars doubles.rom [1, 0, 1, 0] 0 zeroCtx ∧ Config.bufcap < 2 * 65537 :=
  ⟨ready_primed, by decide +kernel⟩

theorem witness_TruncatedFieldStopsTheWalk_archive :
    State.reset.din = [] ∧
    endsWith (fun es => es.length == 1) (readArchive doubles [0x41] 0#4 1#4 [] archiveFile State.reset) = true :=
  ⟨rfl, witness_ArchiveNeedsAnIntactHeader.1⟩

theorem witness_FieldReadIsOneDecrypt :
    (primed []).din = [] ∧ (1#4).toNat < 2 ∧ (primed []).ovf = false ∧ ([5, 6] : List Byte).length ≤ Config.bufcap ∧
    (primed []).ctxAt 1#4 = some zeroCtx := by decide +kernel

/-- R280: a set OVF is the host's error. -/
theorem test_issue_stops_on_ovf : failsWith .overflow (issue doubles .akdCsum none [7] stickyState) = true := by
  decide +kernel

theorem witness_NoCommandAnswersOnAShortenedOperand :
    Config.bufcap < (List.replicate 131073 (0 : Byte)).length ∧
    (Instr.akdCsum ≠ .sysClrerr ∧ ([] : List Byte).length ≤ Config.bufcap ∧ stickyState.ovf = true) ∧
    (([7] : List Byte).length ≤ Config.bufcap ∧ ([7] : List Byte) ≠ [] ∧
      Config.bufcap < (given (List.replicate 131072 0)).din.length + ([7] : List Byte).length) ∧
    endsWith (fun out => out == []) (issue doubles .akdCsum none [7] State.reset) = true ∧
    endsWith (fun es => es.length == 1) (readArchive doubles [0x41] 0#4 1#4 [] archiveFile State.reset) = true :=
  ⟨Nat.lt_of_lt_of_eq (by decide) List.length_replicate.symm, by decide,
    ⟨by decide, by decide, Nat.lt_of_lt_of_eq (by decide) (congrArg (· + 1) List.length_replicate.symm)⟩,
    by decide +kernel, witness_ArchiveNeedsAnIntactHeader.1⟩

end Sys2Proof.Tests
end

/-! ## The state family: what a step, a command and a decrypt do to the state -/

namespace Sys2Proof.Machine

open Sys2Proof

/-! ### one step of the machine -/

/-- What every host access but a launch and the reset event leaves (R44, R232): the cipher state, ERR and the sticky error
bits as they were; OVF, once set, stays set; the input queue grows only where it has room, the output queue only shrinks. -/
structure AccessFrame (s t : State) : Prop where
  ctxs : t.ctxs = s.ctxs
  nkey : t.nkey = s.nkey
  err : t.err = s.err
  sCfg : t.sCfg = s.sCfg
  sBnd : t.sBnd = s.sBnd
  sIll : t.sIll = s.sIll
  sNinit : t.sNinit = s.sNinit
  ovf : s.ovf = true → t.ovf = true
  din_cap : s.din.length ≤ Config.bufcap → t.din.length ≤ Config.bufcap
  dout_le : t.dout.length ≤ s.dout.length

theorem AccessFrame.refl (s : State) : AccessFrame s s := ⟨rfl, rfl, rfl, rfl, rfl, rfl, rfl, id, id, le_rfl⟩

theorem pushDin_accessFrame (b : Byte) (s : State) : AccessFrame s (s.pushDin b) := by
  rcases State.pushDin_cases b s with ⟨room, e⟩ | ⟨-, e⟩ <;> rw [e]
  · exact { AccessFrame.refl s with din_cap := fun _ => by simpa using room }
  · exact { AccessFrame.refl s with ovf := fun _ => rfl }

theorem popDout_accessFrame (s : State) : AccessFrame s s.popDout.2 := by
  rcases State.popDout_cases s with ⟨-, e⟩ | ⟨b, rest, hd, e⟩ <;> rw [e]
  · exact .refl s
  · exact { AccessFrame.refl s with dout_le := by simp [hd] }

/-- A write to any register that ignores writes does nothing (R38, R232). -/
theorem writeReg_ignored (r : Nat) (v : Word) (s : State) (h1 : r ≠ 1) (h6 : r ≠ 6) : State.writeReg r v s = s := by
  unfold State.writeReg
  split
  · exact absurd rfl h1
  · exact absurd rfl h6
  · rfl

/-- A read of any register but DOUT: the value it returns, and no change (R38, R232). -/
theorem readReg_eq (r : Nat) (s : State) (h7 : r ≠ 7) :
    s.readReg r = (if r = 1 then s.arg0 else if r = 2 then s.status else if r = 3 then s.res0 else if r = 4 then s.res1
      else if r = 5 then s.res2 else if r = 8 then BitVec.ofNat 32 s.din.length
      else if r = 9 then BitVec.ofNat 32 s.dout.length else 0#32, s) := by
  unfold State.readReg; split <;> simp_all

theorem writeReg_accessFrame (r : Nat) (v : Word) (s : State) : AccessFrame s (State.writeReg r v s) := by
  by_cases h1 : r = 1
  · subst h1; exact { AccessFrame.refl s with }
  · by_cases h6 : r = 6
    · subst h6; exact pushDin_accessFrame _ s
    · rw [writeReg_ignored r v s h1 h6]; exact .refl s

theorem readReg_accessFrame (r : Nat) (s : State) : AccessFrame s (s.readReg r).2 := by
  by_cases h7 : r = 7
  · subst h7; exact popDout_accessFrame s
  · rw [readReg_eq r s h7]; exact .refl s

/-- Everything a step can do: an access (or nothing, with no event pending), a reset, or a launch. -/
theorem step_cases {s t : State} (h : step s = .next t) :
    AccessFrame s t ∨
    (∃ rest, s.pending = .reset :: rest ∧ t = ({ s with pending := rest } : State).resetEvent) ∨
    (∃ w rest, s.pending = .write 0 w :: rest ∧
      t = launchWith Config.hw w { s with pending := rest, rdata := none }) := by
  cases hp : s.pending with
  | nil =>
    rw [step_nil s hp] at h
    cases h
    exact .inl (.refl s)
  | cons e rest =>
    rw [step_cons s e rest hp] at h
    cases h
    cases e with
    | reset => exact .inr (.inl ⟨rest, rfl, rfl⟩)
    | read r => exact .inl { readReg_accessFrame r { s with pending := rest } with }
    | write r v =>
      by_cases h0 : r = 0
      · subst h0; exact .inr (.inr ⟨v, rest, rfl, rfl⟩)
      · rw [performWith_write _ _ _ _ h0]
        exact .inl { writeReg_accessFrame r v { s with pending := rest, rdata := none } with }

/-! ### command words -/

/-- A word that decodes to a command is that command's encoding (R80, R87). -/
theorem eq_encode_of_decode {w : Word} {i : Instr} (h : decode w = .ok i) : w = encode i := by
  have fields : encode i = 0#20 ++ i.ctx ++ i.opc := by
    cases i with
    | aceInit c => exact Laws.EncodingFields.aceInit c
    | aceDec c => exact Laws.EncodingFields.aceDec c
    | _ => rfl
  unfold decode at h
  split at h
  · cases h
  · rename_i hr
    split at h
    · cases h
    · rename_i j hj
      split at h
      · cases h
      · rename_i hc
        cases h
        obtain ⟨hopc, hctx, hzero⟩ := opcodeMap_eq_some hj
        have hctx' : i.ctx = ctxField w := by
          cases ht : i.takesCtx with
          | true => exact hctx ht
          | false => rw [hzero ht]; simp only [ht, true_and, not_not] at hc; exact hc.symm
        rw [fields, hopc, hctx', ← not_not.mp hr]
        exact word_eq_fields w

/-- Every encoding decodes to its command (R82). -/
theorem decode_encode (i : Instr) : decode (encode i) = .ok i := by
  cases i with
  | aceInit c => revert c; decide
  | aceDec c => revert c; decide
  | _ => decide

/-- The encoding of a legal command is one of the thirteen legal words (R83). -/
theorem encode_mem_legalWords {i : Instr} (h : i.wf = true) : encode i ∈ legalWords := by
  cases i with
  | aceInit c => revert c; decide
  | aceDec c => revert c; decide
  | _ => decide

/-- A command that names a context out of range raises IllegalCommand (R83). -/
theorem runWith_of_not_wf (p : Config.Params) {i : Instr} (s : State) (h : i.wf = false) :
    runWith p i s = s.raiseError .illegalCommand := by
  cases i with
  | aceInit c =>
    have hc : Config.nctx ≤ c.toNat := Nat.le_of_not_lt (of_decide_eq_false h)
    simp [runWith, cmdAceInit, hc]
  | aceDec c =>
    have hc : Config.nctx ≤ c.toNat := Nat.le_of_not_lt (of_decide_eq_false h)
    simp [runWith, cmdAceDec, hc]
  | _ => cases h

/-- A launch of any word that is not a legal one raises IllegalCommand (R86). -/
theorem launchWith_illegal (p : Config.Params) (w : Word) (s : State) (h : w ∉ legalWords) :
    launchWith p w s = s.beginLaunch.raiseError .illegalCommand := by
  rcases launchWith_cases p w s with ⟨i, hi, e⟩ | ⟨-, -, e⟩
  · rw [e]
    apply runWith_of_not_wf
    cases hw : i.wf with
    | false => rfl
    | true => exact absurd (eq_encode_of_decode hi ▸ encode_mem_legalWords hw) h
  · exact e

theorem launchWith_encode (p : Config.Params) (i : Instr) (s : State) :
    launchWith p (encode i) s = runWith p i s.beginLaunch := by
  unfold launchWith; rw [decode_encode]

/-- Everything a launch can leave: an error of TWC's own, or the success of the command its word encodes. -/
theorem launchWith_effect (p : Config.Params) (w : Word) (s : State) :
    (∃ e, Raisable e ∧ launchWith p w s = s.beginLaunch.raiseError e) ∨
    (∃ i r s', w = encode i ∧ Prepared i s.beginLaunch s' ∧ launchWith p w s = s'.succeed r) := by
  rcases launchWith_cases p w s with ⟨i, hi, e⟩ | ⟨-, -, e⟩
  · rcases runWith_cases p i s.beginLaunch with ⟨c, hc, q⟩ | ⟨r, s', hs, -, q⟩
    · exact .inl ⟨c, hc, e.trans q⟩
    · exact .inr ⟨i, r, s', eq_encode_of_decode hi, hs, e.trans q⟩
  · exact .inl ⟨_, by simp [Raisable], e⟩

theorem Raisable.not_hosts {e : ErrCode} (h : Raisable e) : e ≠ .integrity ∧ e ≠ .truncation := by
  rcases h with rfl | rfl | rfl | rfl | rfl <;> decide

theorem Raisable.ne_ok {e : ErrCode} (h : Raisable e) : e ≠ .ok := by
  rcases h with rfl | rfl | rfl | rfl | rfl <;> decide

/-! ### the invariant -/

/-- A reset context vector holds no context. -/
theorem ctxAt_of_no_ctxs {s : State} (h : s.ctxs = Vector.replicate Config.nctx none) (c : CtxField) :
    s.ctxAt c = none := by
  unfold State.ctxAt; rw [h]; split <;> simp

theorem valid_of_no_ctxs {s : State} (h : s.ctxs = Vector.replicate Config.nctx none) (c : Nat) :
    s.valid c = false := by
  unfold State.valid; rw [h]; split <;> simp

/-- The payload NPC.DEC finds in a frame is part of the frame (R207). -/
theorem parseFrame_payload_length {fr cipher : List Byte} {l : Nat} {seq : Byte}
    (h : parseFrame fr = .ok (l, seq, cipher)) : cipher.length ≤ fr.length := by
  rcases parseFrame_cases fr with ⟨-, e⟩ | ⟨-, -, e⟩ | ⟨-, -, -, -, e⟩ <;> rw [e] at h <;> cases h
  simp

theorem finish_dout_length_le {r : Except ErrCode Result} {s : State} {n : Nat}
    (h : ∀ x, r = .ok x → x.out.length ≤ n) : (s.finish r).dout.length ≤ n := by
  rcases State.finish_cases r s with ⟨x, hx, e⟩ | ⟨c, -, e⟩ <;> rw [e]
  · exact h x hx
  · exact Nat.zero_le n

/-- No command puts more into the output queue than it holds, given an operand the input queue held (R41). -/
theorem runWith_dout_cap (p : Config.Params) (i : Instr) (s : State) (h : s.din.length ≤ Config.bufcap) :
    (runWith p i s).dout.length ≤ Config.bufcap := by
  cases i with
  | sysNop | sysClrerr | akdCsum => exact Nat.zero_le _
  | akdHkey =>
    rcases cmdAkdHkey_cases s with ⟨-, e⟩ | ⟨-, e⟩ <;> simp [runWith, e, Config.bufcap]
  | akdCkey =>
    rcases cmdAkdCkey_cases s with ⟨-, e⟩ | ⟨-, e⟩ <;> simp [runWith, e, Config.bufcap]
  | aceInit c =>
    rcases cmdAceInit_cases p c s with ⟨-, e⟩ | ⟨-, -, e⟩ | ⟨-, -, e⟩ <;> simp [runWith, e]
  | aceDec c =>
    rcases cmdAceDec_cases p c s with ⟨-, e⟩ | ⟨-, -, e⟩ | ⟨k, -, -, e⟩
    · simp [runWith, e]
    · simp [runWith, e]
    · simpa [runWith, e, decrypt_eq] using h
  | nkdDerive =>
    rcases cmdNkdDerive_cases p s _ _ rfl rfl with ⟨-, e⟩ | ⟨-, -, e⟩ | ⟨-, -, key, -, e⟩ <;> simp [runWith, e, Config.bufcap]
  | nkdLoad =>
    rcases cmdNkdLoad_cases s with ⟨-, e⟩ | ⟨-, key, -, e⟩ <;> simp [runWith, e]
  | npcEnc =>
    rcases cmdNpcEnc_cases s with ⟨-, e⟩ | ⟨key, -, e⟩
    · simp [runWith, e]
    · rw [runWith, e]
      refine finish_dout_length_le fun x hx => ?_
      rcases encryptPacket_cases key s.seqNumber s.din with ⟨-, q⟩ | ⟨-, -, q⟩ | ⟨-, hl, q⟩ <;> rw [q] at hx <;> cases hx
      simp [frame, Config.bufcap]; omega
  | npcDec =>
    rcases cmdNpcDec_cases s with ⟨-, e⟩ | ⟨key, -, e⟩
    · simp [runWith, e]
    · rw [runWith, e]
      refine finish_dout_length_le fun x hx => ?_
      rcases decryptPacket_cases key s.din with ⟨c, -, q⟩ | ⟨f, -, -, q⟩ | ⟨f, -, -, -, q⟩ | ⟨f, hf, -, -, q⟩ <;>
        rw [q] at hx <;> cases hx
      simpa using (parseFrame_payload_length hf).trans h

theorem setCtx_keeps_inv {c : CtxField} {k : Ctx} {s : State} (hc : c.toNat < Config.nctx) (hk : k.Inv)
    (h : ∀ d k', s.ctxAt d = some k' → k'.Inv) : ∀ d k', (s.setCtx c k).ctxAt d = some k' → k'.Inv := by
  intro d k' hd
  by_cases hdc : d = c
  · subst hdc
    rw [State.ctxAt_setCtx_self d k s hc] at hd
    cases hd
    exact hk
  · rw [State.ctxAt_setCtx_other c d k s hdc] at hd
    exact h d k' hd

/-- A command outside unit ACE leaves the contexts as they were (R27). -/
theorem runWith_ctxs (p : Config.Params) (i : Instr) (s : State) (h : i.usesContext = false) :
    (runWith p i s).ctxs = s.ctxs := by
  rcases runWith_cases p i s with ⟨e, -, q⟩ | ⟨r, s', hs, -, q⟩ <;> rw [q]
  · exact State.raiseError_ctxs e s
  · obtain ⟨-, -, -, -, -, -, -, ctxs, -, -⟩ := hs.frame
    exact ctxs h

/-- Every command keeps the promise of R25 on every context. -/
theorem runWith_keeps_ctx_inv (p : Config.Params) (i : Instr) (s : State)
    (h : ∀ c k, s.ctxAt c = some k → k.Inv) : ∀ c k, (runWith p i s).ctxAt c = some k → k.Inv := by
  have of_same : (runWith p i s).ctxs = s.ctxs → ∀ c k, (runWith p i s).ctxAt c = some k → k.Inv :=
    fun e c k hk => h c k (State.ctxAt_congr e c ▸ hk)
  cases i with
  | aceInit c =>
    rcases cmdAceInit_cases p c s with ⟨-, e⟩ | ⟨-, -, e⟩ | ⟨hc, -, e⟩
    · exact of_same (by simp [runWith, e])
    · exact of_same (by simp [runWith, e])
    · rw [runWith, e]
      exact setCtx_keeps_inv hc ⟨Nat.zero_le _, fun _ => rfl⟩ h
  | aceDec c =>
    rcases cmdAceDec_cases p c s with ⟨-, e⟩ | ⟨-, -, e⟩ | ⟨k, hc, hk, e⟩
    · exact of_same (by simp [runWith, e])
    · exact of_same (by simp [runWith, e])
    · rw [runWith, e]
      exact setCtx_keeps_inv hc (decrypt_keeps_inv p.rom s.din k (h c k hk)) h
  | _ => exact of_same (runWith_ctxs p _ s rfl)

/-- The two ends of a launch: ERR is a code of TWC's own, and the input queue is empty (R240, R92). -/
theorem launchWith_err_din (p : Config.Params) (w : Word) (s : State) :
    ((launchWith p w s).err ≠ .integrity ∧ (launchWith p w s).err ≠ .truncation) ∧ (launchWith p w s).din = [] := by
  rcases launchWith_effect p w s with ⟨e, he, q⟩ | ⟨i, r, s', -, -, q⟩ <;> rw [q]
  · exact ⟨he.not_hosts, rfl⟩
  · exact ⟨by simp, rfl⟩

theorem launchWith_keeps_inv (p : Config.Params) (w : Word) (s : State) (h : s.Inv) : (launchWith p w s).Inv := by
  obtain ⟨herr, hdin⟩ := launchWith_err_din p w s
  have body : (launchWith p w s).dout.length ≤ Config.bufcap ∧ ∀ c k, (launchWith p w s).ctxAt c = some k → k.Inv := by
    rcases launchWith_cases p w s with ⟨i, -, q⟩ | ⟨-, -, q⟩ <;> rw [q]
    · exact ⟨runWith_dout_cap p i _ h.din_cap, runWith_keeps_ctx_inv p i _ h.ctxs⟩
    · exact ⟨Nat.zero_le _, fun c k hk => h.ctxs c k (by simpa using hk)⟩
  obtain ⟨hdout, hctxs⟩ := body
  exact ⟨by simp [hdin], hdout, herr, hctxs⟩

theorem AccessFrame.keeps_inv {s t : State} (f : AccessFrame s t) (h : s.Inv) : t.Inv where
  din_cap := f.din_cap h.din_cap
  dout_cap := f.dout_le.trans h.dout_cap
  err_own := f.err ▸ h.err_own
  ctxs := fun c k hk => h.ctxs c k (State.ctxAt_congr f.ctxs c ▸ hk)

theorem resetEvent_inv (s : State) : s.resetEvent.Inv where
  din_cap := Nat.zero_le _
  dout_cap := Nat.zero_le _
  err_own := by simp
  ctxs := fun c k hk => by rw [ctxAt_of_no_ctxs rfl] at hk; cases hk

/-- Settles O46: an access by its frame, a reset outright, a launch by what each command leaves. -/
theorem everyStepKeepsTheInvariant : Obligations.EveryStepKeepsTheInvariant := by
  intro s t hs ht
  rcases step_cases ht with f | ⟨rest, -, e⟩ | ⟨w, rest, -, e⟩
  · exact f.keeps_inv hs
  · rw [e]; exact resetEvent_inv _
  · rw [e]; exact launchWith_keeps_inv _ _ _ ⟨hs.din_cap, hs.dout_cap, hs.err_own, hs.ctxs⟩

/-- Settles O47: the reset state is what a reset event leaves. -/
theorem resetMeetsTheInvariant : Obligations.ResetMeetsTheInvariant := resetEvent_inv State.reset

/-! ### launches -/

/-- Settles O4: the word is the encoding of the command it decodes to, and a launch of an encoding runs its command. -/
theorem stepRunsTheDecodedCommand : Obligations.StepRunsTheDecodedCommand := by
  intro s w rest i hp hd
  have launched : launchWith Config.hw w { s with pending := rest, rdata := none }
      = runWith Config.hw i { s with pending := rest, rdata := none, dout := [], cmdIndex := s.cmdIndex + 1 } := by
    rw [eq_encode_of_decode hd, launchWith_encode]; rfl
  rw [step_cons s _ rest hp, exec_eq_runWith]
  exact congrArg _ launched

/-- Settles O3: a word outside the legal ones is no encoding, or the encoding of an ACE command on a context out of range. -/
theorem illegalWordsRaiseIllegalCommand : Obligations.IllegalWordsRaiseIllegalCommand := by
  intro s w rest hp hw
  have launched := launchWith_illegal Config.hw w { s with pending := rest, rdata := none } hw
  rw [step_cons s _ rest hp]
  exact congrArg _ (launched.trans rfl)

/-- Settles O41: each access by the rule of its register. -/
theorem hostAccessTable : Obligations.HostAccessTable := by
  intro s rest
  have byte (v : Word) : v.extractLsb' 0 8 = v.setWidth 8 := BitVec.setWidth_eq_extractLsb' (by omega) |>.symm
  refine ⟨?_, ?_, ?_, ?_, ?_, ?_, ?_, step_nil s⟩
  · intro v hp
    rw [step_cons s _ rest hp]; rfl
  · intro v hp room
    rw [step_cons s _ rest hp, performWith_write _ _ _ _ (by decide)]
    simp [State.writeReg, State.pushDin, room, byte]
  · intro v hp full
    rw [step_cons s _ rest hp, performWith_write _ _ _ _ (by decide)]
    simp [State.writeReg, State.pushDin, Nat.not_lt.mpr full]
  · intro r v hp h0 h1 h6
    rw [step_cons s _ rest hp, performWith_write _ _ _ _ h0, writeReg_ignored r v _ h1 h6]
  · intro b q hp hd
    rw [step_cons s _ rest hp]
    simp [performWith, State.readReg, State.popDout, hd]
  · intro hp hd
    rw [step_cons s _ rest hp]
    simp [performWith, State.readReg, State.popDout, hd]
  · intro r hp h7
    rw [step_cons s _ rest hp]
    simp only [performWith, readReg_eq r _ h7]
    rfl

/-! ### STATUS and reset -/

/-- Settles O42: each field by the byte of STATUS it lies in. -/
theorem statusLayout : Obligations.StatusLayout := by
  intro s
  obtain ⟨ovf, sCfg, z2, sBnd, z4, z5, sIll, sNinit⟩ := s.stickyByte_bits
  have sticky (i : Nat) (h : i < 8) : s.status.getLsbD (8 + i) = s.stickyByte.getLsbD i := by
    rw [State.status_getLsbD, if_neg (by omega), if_pos (by omega), Nat.add_sub_cancel_left]
  refine ⟨?_, (sticky 0 (by omega)).trans ovf, (sticky 1 (by omega)).trans sCfg, (sticky 2 (by omega)).trans z2,
    (sticky 3 (by omega)).trans sBnd, (sticky 4 (by omega)).trans z4, (sticky 5 (by omega)).trans z5,
    (sticky 6 (by omega)).trans sIll, (sticky 7 (by omega)).trans sNinit, ?_, ?_, ?_⟩
  · apply BitVec.eq_of_getLsbD_eq
    intro i hi
    simp [State.status_getLsbD, hi]
  · rw [State.status_getLsbD]; rfl
  · apply BitVec.eq_of_getLsbD_eq
    intro i hi
    rw [BitVec.getLsbD_extractLsb', State.status_getLsbD, if_neg (by omega), if_neg (by omega), if_neg (by omega),
      if_pos (by omega)]
    simp
  · intro c hc
    rw [State.status_getLsbD, if_neg (by omega), if_neg (by omega), if_neg (by omega), if_neg (by omega),
      Nat.add_sub_cancel_left, State.cvalidByte_getLsbD s c hc]

/-- Settles O43: the reset event answers the reset state, which holds no context and no key. -/
theorem resetClearsTheMachine : Obligations.ResetClearsTheMachine := by
  refine ⟨?_, ctxAt_of_no_ctxs rfl, valid_of_no_ctxs rfl, rfl, by decide, rfl, rfl, rfl, rfl, rfl, rfl⟩
  intro s rest hp
  rw [step_cons s _ rest hp]
  rfl

/-! ### what a command leaves unchanged -/

/-- Settles O8: a failed command touches the interface only, a successful one its prepared cipher state and its result. -/
theorem commandFrame : Obligations.CommandFrame := by
  intro i s t h
  rw [exec_eq_runWith] at h
  cases h
  rcases runWith_cases Config.hw i s with ⟨e, he, q⟩ | ⟨r, s', hs, ⟨hr, hr2⟩, q⟩ <;> rw [q]
  · simp [SameHostSide, SameResults, he.ne_ok]
  · obtain ⟨arg0, cmdIndex, pending, rdata, res0, res1, res2, ctxs, nkey, sticky⟩ := hs.frame
    refine ⟨⟨arg0, cmdIndex, pending, rdata⟩, rfl, ctxs, nkey, fun hw => ?_, fun hw => ?_, fun hc => (sticky hc).1,
      fun hc _ => sticky hc⟩
    · obtain ⟨h0, h1, h2⟩ := hr hw
      simp [SameResults, h0, h1, h2, res0, res1, res2]
    · simp [hr2 hw, res2]

/-! ### valid bits and sticky bits -/

/-- Writing a context sets its valid bit and no other (R26). -/
theorem valid_setCtx (c : CtxField) (k : Ctx) (s : State) (n : Nat) (h : c.toNat < Config.nctx) :
    (s.setCtx c k).valid n = (decide (n = c.toNat) || s.valid n) := by
  unfold State.valid
  rw [State.setCtx_ctxs c k s h]
  by_cases hn : n = c.toNat
  · subst hn; simp [h]
  · by_cases hl : n < Config.nctx
    · simp [hl, hn, Vector.getElem_set_ne h hl (Ne.symm hn)]
    · simp [hl, hn]

theorem Prepared.valid_keeps {i : Instr} {s t : State} (h : Prepared i s t) (c : Nat) (hc : s.valid c = true) :
    t.valid c = true := by
  cases h with
  | ctx d k _ hd => rw [valid_setCtx d k s c hd, hc, Bool.or_true]
  | same _ | clear _ | nkey _ _ => exact hc

/-- A valid bit that becomes set is that of the context an ACE.INIT names: an ACE.DEC needs it set already (R26). -/
theorem Prepared.valid_sets {i : Instr} {s t : State} (h : Prepared i s t) (c : CtxField) (h0 : s.valid c.toNat = false)
    (h1 : t.valid c.toNat = true) : i = .aceInit c := by
  cases h with
  | ctx d k hi hd =>
    rw [valid_setCtx d k s _ hd, h0, Bool.or_false, decide_eq_true_eq] at h1
    obtain rfl : c = d := BitVec.eq_of_toNat_eq h1
    rcases hi with hi | ⟨-, k0, hk0⟩
    · exact hi
    · rw [State.valid_eq_isSome s c hd, hk0] at h0
      cases h0
  | same _ | clear _ | nkey _ _ => exact absurd (h0.symm.trans h1) (by decide)

theorem Prepared.nkvalid_keeps {i : Instr} {s t : State} (h : Prepared i s t) (hk : s.nkvalid = true) :
    t.nkvalid = true := by
  cases h with
  | ctx d k _ _ => rw [State.nkvalid, State.setCtx_nkey]; exact hk
  | nkey k _ => rfl
  | same _ | clear _ => exact hk

theorem Prepared.nkvalid_sets {i : Instr} {s t : State} (h : Prepared i s t) (h0 : s.nkvalid = false)
    (h1 : t.nkvalid = true) : i = .nkdDerive ∨ i = .nkdLoad := by
  cases h with
  | ctx d k _ _ =>
    rw [State.nkvalid, State.setCtx_nkey] at h1
    exact absurd (h0.symm.trans h1) (by decide)
  | nkey k hi => exact hi
  | same _ | clear _ => exact absurd (h0.symm.trans h1) (by decide)

theorem head?_eq_of_cons {l rest : List HostEvent} {e : HostEvent} (h : l = e :: rest) : l.head? = some e := by
  rw [h]; rfl

/-- What a step other than a reset does to the cipher state: nothing, or what the success of the launched command prepares. -/
theorem step_cipher_cases {s t : State} (h : step s = .next t) (hreset : s.pending.head? ≠ some .reset) :
    (t.ctxs = s.ctxs ∧ t.nkey = s.nkey) ∨
    (∃ i u s' r, s.pending.head? = some (.write 0 (encode i)) ∧ Prepared i u s' ∧
      u.ctxs = s.ctxs ∧ u.nkey = s.nkey ∧ t = s'.succeed r) := by
  rcases step_cases h with f | ⟨rest, hp, -⟩ | ⟨w, rest, hp, e⟩
  · exact .inl ⟨f.ctxs, f.nkey⟩
  · exact absurd (head?_eq_of_cons hp) hreset
  · rcases launchWith_effect Config.hw w { s with pending := rest, rdata := none } with
      ⟨c, -, q⟩ | ⟨i, r, s', rfl, hs, q⟩ <;> rw [q] at e <;> subst e
    · exact .inl ⟨by simp, by simp⟩
    · exact .inr ⟨i, _, s', r, head?_eq_of_cons hp, hs, rfl, rfl, rfl⟩

/-- Settles O44: only a launch that succeeds can set a valid bit, and it keeps those that are set. -/
theorem validBitsAreSetOnce : Obligations.ValidBitsAreSetOnce := by
  intro s t h hreset
  rcases step_cipher_cases h hreset with ⟨hctxs, hnkey⟩ | ⟨i, u, s', r, hp, hs, hctxs, hnkey, rfl⟩
  · have hn : t.nkvalid = s.nkvalid := congrArg Option.isSome hnkey
    simp +contextual [State.valid_congr hctxs, hn]
  · have hv := State.valid_congr hctxs
    have hn : u.nkvalid = s.nkvalid := congrArg Option.isSome hnkey
    refine ⟨fun c hc => hs.valid_keeps c ((hv c).trans hc), fun hk => hs.nkvalid_keeps (hn.trans hk),
      fun c h0 h1 => ?_, fun h0 h1 => ?_⟩
    · obtain rfl := hs.valid_sets c ((hv _).trans h0) h1
      exact ⟨hp, rfl⟩
    · rcases hs.nkvalid_sets (hn.trans h0) h1 with rfl | rfl
      · exact ⟨.inl hp, rfl⟩
      · exact ⟨.inr hp, rfl⟩

/-- Settles O45: an error adds a sticky bit, and the success of any command but SYS.CLRERR keeps all of them. -/
theorem stickyBitsAreSticky : Obligations.StickyBitsAreSticky := by
  intro s t h hreset hclrerr
  rcases step_cases h with f | ⟨rest, hp, -⟩ | ⟨w, rest, hp, e⟩
  · exact ⟨f.ovf, f.sCfg.trans, f.sBnd.trans, f.sIll.trans, f.sNinit.trans⟩
  · exact absurd (head?_eq_of_cons hp) hreset
  · rcases launchWith_effect Config.hw w { s with pending := rest, rdata := none } with
      ⟨c, -, q⟩ | ⟨i, r, s', rfl, hs, q⟩ <;> rw [q] at e <;> subst e
    · simp +contextual
    · have hi : i ≠ .sysClrerr := by rintro rfl; exact hclrerr (head?_eq_of_cons hp)
      obtain ⟨-, -, -, -, -, -, -, -, -, sticky⟩ := hs.frame
      obtain ⟨ovf, sCfg, sBnd, sIll, sNinit⟩ := sticky hi
      exact ⟨ovf.trans, sCfg.trans, sBnd.trans, sIll.trans, sNinit.trans⟩

/-! ### units and contexts share no cipher state -/

/-- The state with all contexts replaced (R20). -/
abbrev State.withCtxs (v : Vector (Option Ctx) Config.nctx) (s : State) : State := { s with ctxs := v }

/-- The state with NKEY replaced (R33). -/
abbrev State.withNkey (k : Option (Vector Byte 268)) (s : State) : State := { s with nkey := k }

theorem raiseError_withCtxs (v : Vector (Option Ctx) Config.nctx) (e : ErrCode) (s : State) :
    (s.withCtxs v).raiseError e = (s.raiseError e).withCtxs v := by
  cases e <;> rfl

theorem raiseError_withNkey (k : Option (Vector Byte 268)) (e : ErrCode) (s : State) :
    (s.withNkey k).raiseError e = (s.raiseError e).withNkey k := by
  cases e <;> rfl

theorem finish_withCtxs (v : Vector (Option Ctx) Config.nctx) (r : Except ErrCode Result) (s : State) :
    (s.withCtxs v).finish r = (s.finish r).withCtxs v := by
  cases r with
  | ok x => rfl
  | error e => exact raiseError_withCtxs v e s

theorem finish_withNkey (k : Option (Vector Byte 268)) (r : Except ErrCode Result) (s : State) :
    (s.withNkey k).finish r = (s.finish r).withNkey k := by
  cases r with
  | ok x => rfl
  | error e => exact raiseError_withNkey k e s

/-- A command outside unit ACE does not see the contexts (R20, R27). -/
theorem runWith_withCtxs (p : Config.Params) (v : Vector (Option Ctx) Config.nctx) (i : Instr) (s : State)
    (h : i.usesContext = false) : runWith p i (s.withCtxs v) = (runWith p i s).withCtxs v := by
  cases i with
  | sysNop | sysClrerr | akdCsum => rfl
  | akdHkey | akdCkey => exact finish_withCtxs v _ s
  | aceInit c | aceDec c => cases h
  | nkdDerive =>
    simp only [runWith, cmdNkdDerive, State.seed, State.data]
    cases deriveKey p s.arg0 s.din with
    | ok key => rfl
    | error e => exact raiseError_withCtxs v e s
  | nkdLoad =>
    by_cases hl : s.din.length = 268
    · exact (dif_pos hl).trans (congrArg (State.withCtxs v) (dif_pos hl : cmdNkdLoad s = _)).symm
    · have load (u : State) (hu : u.din = s.din) : cmdNkdLoad u = u.raiseError .configuration :=
        dif_neg (by rw [State.data, hu]; exact hl)
      rw [runWith, runWith, load (s.withCtxs v) rfl, load s rfl, raiseError_withCtxs]
  | npcEnc =>
    simp only [runWith, cmdNpcEnc]
    cases s.nkey with
    | none => exact raiseError_withCtxs v _ s
    | some key => exact finish_withCtxs v _ s
  | npcDec =>
    simp only [runWith, cmdNpcDec]
    cases s.nkey with
    | none => exact raiseError_withCtxs v _ s
    | some key => exact finish_withCtxs v _ s

theorem setCtx_withNkey (c : CtxField) (x : Ctx) (k : Option (Vector Byte 268)) (s : State) :
    (s.withNkey k).setCtx c x = (s.setCtx c x).withNkey k := by
  unfold State.setCtx; split <;> rfl

/-- A command outside the units NKD and NPC does not see NKEY (R33, R60). -/
theorem runWith_withNkey (p : Config.Params) (k : Option (Vector Byte 268)) (i : Instr) (s : State)
    (h : i.usesNetworkKey = false) : runWith p i (s.withNkey k) = (runWith p i s).withNkey k := by
  cases i with
  | sysNop | sysClrerr | akdCsum => rfl
  | akdHkey | akdCkey => exact finish_withNkey k _ s
  | aceInit c =>
    simp only [runWith, cmdAceInit, State.data]
    split
    · exact raiseError_withNkey k _ s
    · cases requireLength 16 s.din with
      | ok _ => simp only [setCtx_withNkey]; rfl
      | error e => exact raiseError_withNkey k e s
  | aceDec c =>
    have hc : (s.withNkey k).ctxAt c = s.ctxAt c := rfl
    simp only [runWith, cmdAceDec, State.data, hc]
    split
    · exact raiseError_withNkey k _ s
    · cases s.ctxAt c with
      | some x => simp only [setCtx_withNkey]; rfl
      | none => exact raiseError_withNkey k _ s
  | nkdDerive | nkdLoad | npcEnc | npcDec => cases h

section OneContext

variable (c d : CtxField) (hd : d.toNat < Config.nctx) (v : Option Ctx)

/-- The state with the content of context d replaced (R20). -/
abbrev State.putCtx (s : State) : State := s.withCtxs (s.ctxs.set d.toNat v)

theorem raiseError_putCtx (e : ErrCode) (s : State) :
    (s.putCtx d hd v).raiseError e = (s.raiseError e).putCtx d hd v := by
  simp only [State.putCtx, raiseError_withCtxs, State.raiseError_ctxs]

variable (hcd : c ≠ d)
include hcd

theorem ctxAt_putCtx_other (s : State) : (s.putCtx d hd v).ctxAt c = s.ctxAt c := by
  have hne : d.toNat ≠ c.toNat := fun e => hcd (BitVec.eq_of_toNat_eq e.symm)
  unfold State.ctxAt
  split
  · exact Vector.getElem_set_ne hd (by assumption) hne
  · rfl

theorem succeed_setCtx_putCtx_other (k : Ctx) (r : Result) (s : State) :
    ((s.putCtx d hd v).setCtx c k).succeed r = ((s.setCtx c k).succeed r).putCtx d hd v := by
  have hne : d.toNat ≠ c.toNat := fun e => hcd (BitVec.eq_of_toNat_eq e.symm)
  unfold State.setCtx
  split
  · rename_i hc
    rw [State.putCtx, State.withCtxs, Vector.set_comm (hi := hd) (hj := hc) _ _ hne]
    rfl
  · rfl

/-- ACE.INIT of one context does not see another (R20). -/
theorem cmdAceInit_putCtx_other (p : Config.Params) (s : State) :
    cmdAceInit p c (s.putCtx d hd v) = (cmdAceInit p c s).putCtx d hd v := by
  simp only [cmdAceInit, State.data]
  split
  · exact raiseError_putCtx d hd v _ s
  · cases requireLength 16 s.din with
    | ok _ => exact succeed_setCtx_putCtx_other c d hd v hcd _ _ s
    | error e => exact raiseError_putCtx d hd v e s

/-- ACE.DEC of one context does not see another (R20). -/
theorem cmdAceDec_putCtx_other (p : Config.Params) (s : State) :
    cmdAceDec p c (s.putCtx d hd v) = (cmdAceDec p c s).putCtx d hd v := by
  simp only [cmdAceDec, State.data, ctxAt_putCtx_other c d hd v hcd]
  split
  · exact raiseError_putCtx d hd v _ s
  · cases s.ctxAt c with
    | some k => exact succeed_setCtx_putCtx_other c d hd v hcd _ _ s
    | none => exact raiseError_putCtx d hd v _ s

end OneContext

/-- Settles O9: replacing the state a command does not use commutes with the command. -/
theorem unitsShareNoCipherState : Obligations.UnitsShareNoCipherState := by
  refine ⟨fun i s t v h hi => ?_, fun i s t k h hi => ?_, fun c d hd s t v hcd => ⟨fun h => ?_, fun h => ?_⟩⟩ <;>
    rw [exec_eq_runWith] at h ⊢ <;> cases h
  · exact congrArg _ (runWith_withCtxs Config.hw v i s hi)
  · exact congrArg _ (runWith_withNkey Config.hw k i s hi)
  · exact congrArg _ (cmdAceInit_putCtx_other c d hd v hcd Config.hw s)
  · exact congrArg _ (cmdAceDec_putCtx_other c d hd v hcd Config.hw s)

/-! ### ACE.INIT and ACE.DEC -/

/-- The whole effect of a successful ACE command is its context and the interface (R20, R92). -/
theorem succeed_setCtx_eq (c : CtxField) (k : Ctx) (out : List Byte) (s : State) :
    (s.setCtx c k).succeed { out := out }
      = { s with ctxs := (s.setCtx c k).ctxs, err := .ok, dout := out, din := [] } := by
  apply State.ext_fields <;> simp

/-- Settles O20: a 16-byte key on a context in range leaves only the success of the command. -/
theorem aceInitBuildsAFreshContext : Obligations.AceInitBuildsAFreshContext := by
  intro s c hc hlen
  have ran : cmdAceInit Config.hw c s = (s.setCtx c (initialize16 Config.hw.rom s.din)).succeed { out := [] } := by
    rcases cmdAceInit_cases Config.hw c s with ⟨h, -⟩ | ⟨-, h, -⟩ | ⟨-, -, e⟩
    · exact absurd hc (Nat.not_lt.mpr h)
    · exact absurd hlen h
    · exact e
  refine ⟨_, initialize16 Config.hw.rom s.din, exec_eq_runWith _ _, ?_, ?_, rfl, rfl, rfl, rfl, fun d hd => ?_⟩ <;>
    rw [runWith, ran]
  · exact succeed_setCtx_eq c _ _ s
  · exact State.ctxAt_setCtx_self c _ s hc
  · exact State.ctxAt_setCtx_other c d _ s hd

/-- Filling in two parts, with the bytes of the first part taken off, draws as many words as filling at once (R129). -/
theorem wordsDrawn_add (rom : Config.Rom) (a b : Nat) (k : Ctx) :
    k.wordsDrawn a + ((fill rom a k).dropKbuf a).wordsDrawn b = k.wordsDrawn (a + b) := by
  have h : ((fill rom a k).dropKbuf a).kbuf.length = k.kbuf.length + 4 * k.wordsDrawn a - a := by
    simp [Ctx.dropKbuf, fill_eq_draws, draws_kbuf_length]
  unfold Ctx.wordsDrawn at h ⊢
  omega

theorem dropKbuf_dropKbuf (a b : Nat) (k : Ctx) : (k.dropKbuf a).dropKbuf b = k.dropKbuf (a + b) := by
  simp [Ctx.dropKbuf]

/-- Settles O24: both sides draw the same words and take the same bytes off KBUF. -/
theorem keystreamConsumptionIsAdditive : Obligations.KeystreamConsumptionIsAdditive := by
  intro rom k a b
  simp only [decrypt_eq]
  calc (fill rom b.length ((fill rom a.length k).dropKbuf a.length)).dropKbuf b.length
      = (draws rom (((fill rom a.length k).dropKbuf a.length).wordsDrawn b.length)
          (fill rom a.length k)).dropKbuf (a.length + b.length) := by
        rw [fill_eq_draws rom b.length, draws_dropKbuf rom _ _ _ (le_fill_kbuf_length rom a.length k), dropKbuf_dropKbuf]
    _ = (draws rom (k.wordsDrawn (a.length + b.length)) k).dropKbuf (a.length + b.length) := by
        rw [← wordsDrawn_add rom, draws_add, ← fill_eq_draws rom a.length k]
    _ = (fill rom (a ++ b).length k).dropKbuf (a ++ b).length := by
        rw [List.length_append, fill_eq_draws]

/-- A fill for l bytes regenerates the number of blocks of R130, at most one for each byte, and moves the rest of the
keystream no further. -/
theorem upcoming_fill (rom : Config.Rom) (l : Nat) (k : Ctx) :
    k.blocksDrawn l ≤ l ∧ ∀ n, (fill rom l k).upcoming rom n = k.upcoming rom (n + k.blocksDrawn l) := by
  obtain ⟨r, hcur, hpos, hup⟩ := upcoming_draws rom (k.wordsDrawn l) k
  have hk := k.cur_le
  have hd := (draws rom (k.wordsDrawn l) k).cur_le
  have hl : k.wordsDrawn l ≤ l := by unfold Ctx.wordsDrawn; omega
  have hr : k.blocksDrawn l = r ∧ r ≤ l := by
    unfold Ctx.blocksDrawn
    split
    · rename_i h0
      rw [h0, draws] at hcur
      omega
    · omega
  rw [hr.1, fill_eq_draws]
  exact ⟨hr.2, hup⟩

/-- Settles O22: the fill behind an ACE.DEC only moves keystream bytes to KBUF, where the operand meets the first L. -/
theorem aceDecSubtractsTheNextKeystreamBytes : Obligations.AceDecSubtractsTheNextKeystreamBytes := by
  intro s c k hc hk
  have ran : cmdAceDec Config.hw c s
      = (s.setCtx c (decrypt Config.hw.rom s.din k).2).succeed { out := (decrypt Config.hw.rom s.din k).1 } := by
    rcases cmdAceDec_cases Config.hw c s with ⟨h, -⟩ | ⟨-, h, -⟩ | ⟨k', -, h, e⟩
    · exact absurd hc (Nat.not_lt.mpr h)
    · rw [hk] at h; cases h
    · rw [hk] at h; cases h; exact e
  obtain ⟨hblocks, hup⟩ := upcoming_fill Config.hw.rom s.din.length k
  have hfill := le_fill_kbuf_length Config.hw.rom s.din.length k
  have hall : k.upcoming Config.hw.rom s.din.length
      = (fill Config.hw.rom s.din.length k).upcoming Config.hw.rom (s.din.length - k.blocksDrawn s.din.length) := by
    rw [hup, Nat.sub_add_cancel hblocks]
  refine ⟨_, (decrypt Config.hw.rom s.din k).2, s.din.length - k.blocksDrawn s.din.length, exec_eq_runWith _ _,
    ?_, ?_, ?_, ?_, Nat.sub_add_cancel hblocks, fun d hd => ?_⟩
  · rw [runWith, ran]; exact succeed_setCtx_eq c _ _ s
  · rw [runWith, ran, State.succeed_dout, decrypt_eq, hall, upcoming_take _ _ _ _ hfill]
    exact ⟨subtractLE_length _ _, le_subtractLE _ _⟩
  · rw [runWith, ran]; exact State.ctxAt_setCtx_self c _ s hc
  · rw [decrypt_eq, hall]; exact upcoming_dropKbuf _ _ _ _ hfill
  · rw [runWith, ran]; exact State.ctxAt_setCtx_other c d _ s hd

/-! ### the host's side -/

/-- The state after the access of a line that gives ARG0, if it does (R87). -/
def State.giveArg0 (arg0 : Option Word) (s : State) : State :=
  match arg0 with
  | none => s
  | some a => { s with arg0 := a, rdata := none }

@[simp] theorem State.giveArg0_din (arg0 : Option Word) (s : State) : (s.giveArg0 arg0).din = s.din := by
  cases arg0 <;> rfl

@[simp] theorem State.giveArg0_ovf (arg0 : Option Word) (s : State) : (s.giveArg0 arg0).ovf = s.ovf := by
  cases arg0 <;> rfl

/-- The accesses of a line run its command on what its operand bytes left (R92). -/
theorem drive_line (p : Config.Params) (i : Instr) (arg0 : Option Word) (data : List Byte) (s : State) :
    drive p (Line.events { instr := i, arg0 := arg0, data := data }) s
      = runWith p i ({ drive p (data.map (fun b => HostEvent.write 6 (b.setWidth 32))) (s.giveArg0 arg0) with
          rdata := none } : State).beginLaunch := by
  simp only [Line.events, drive_append]
  cases arg0 <;> exact launchWith_encode p i _

/-- With OVF set, or with no room for the operand, a line of any command but SYS.CLRERR leaves OVF set (R41, R42). -/
theorem drive_line_ovf (p : Config.Params) (i : Instr) (arg0 : Option Word) (data : List Byte) (s : State)
    (hi : i ≠ .sysClrerr) (h : s.ovf = true ∨ (data ≠ [] ∧ Config.bufcap < s.din.length + data.length)) :
    (drive p (Line.events { instr := i, arg0 := arg0, data := data }) s).ovf = true := by
  rw [drive_line, runWith_ovf p i _ hi]
  exact drive_din_ovf p data _ (by simpa using h)

/-- With room for the operand, a line runs its command on the whole operand after what the input queue held. -/
theorem drive_line_of_room (p : Config.Params) (i : Instr) (arg0 : Option Word) (data : List Byte) (s : State)
    (h : data = [] ∨ s.din.length + data.length ≤ Config.bufcap) :
    drive p (Line.events { instr := i, arg0 := arg0, data := data }) s
      = runWith p i { s with
          arg0 := arg0.getD s.arg0, din := s.din ++ data, dout := [], rdata := none, cmdIndex := s.cmdIndex + 1 } := by
  rw [drive_line]
  congr 1
  by_cases hd : data = []
  · subst hd
    rw [List.append_nil]
    cases arg0 <;> rfl
  · rw [drive_din p data _ (by simpa using h.resolve_left hd), if_neg hd]
    cases arg0 <;> rfl

/-- A command that answers had an operand the host accepts, ended with ERR 0 and OVF clear, and its output was popped. -/
theorem issue_eq_ok {p : Config.Params} {i : Instr} {arg0 : Option Word} {data out : List Byte} {s t : State}
    (h : issue p i arg0 data s = (.ok out, t)) :
    data.length ≤ Config.bufcap ∧ ∃ s1 v, s1 = drive p (Line.events { instr := i, arg0 := arg0, data := data }) s ∧
      s1.ovf = false ∧ s1.err = .ok ∧ out = s1.dout ∧ t = { s1 with dout := [], rdata := v } := by
  rcases issue_cases p i arg0 data s with ⟨-, e⟩ | ⟨hl, s1, hs1, ⟨-, e⟩ | ⟨-, -, e⟩ | ⟨ho, he, v, e⟩⟩ <;>
    rw [e] at h <;> cases h
  exact ⟨hl, s1, v, hs1, ho, he, rfl, rfl⟩

theorem issue_ovf_clear {p : Config.Params} {i : Instr} {arg0 : Option Word} {data out : List Byte} {s t : State}
    (h : issue p i arg0 data s = (.ok out, t)) : t.ovf = false := by
  obtain ⟨-, s1, v, -, ho, -, -, rfl⟩ := issue_eq_ok h
  exact ho

/-- A host program that leaves OVF clear whenever it starts with OVF clear and ends with a value. -/
def Session.KeepsOvfClear {α : Type} (m : Session α) : Prop :=
  ∀ ⦃s t : State⦄ ⦃a : α⦄, s.ovf = false → m s = (.ok a, t) → t.ovf = false

theorem Session.KeepsOvfClear.give {α : Type} (a : α) : (Session.give a).KeepsOvfClear := by
  intro s t b h e
  cases e
  exact h

theorem Session.KeepsOvfClear.fail {α : Type} (e : HostError) : (Session.fail e : Session α).KeepsOvfClear := by
  intro s t b _ h
  cases h

theorem Session.KeepsOvfClear.andThen {α β : Type} {m : Session α} {f : α → Session β} (hm : m.KeepsOvfClear)
    (hf : ∀ a, (f a).KeepsOvfClear) : (m.andThen f).KeepsOvfClear := by
  intro s t b h e
  obtain ⟨a, s', h1, h2⟩ := Session.andThen_eq_ok e
  exact hf a (hm h h1) h2

theorem issue_keepsOvfClear (p : Config.Params) (i : Instr) (arg0 : Option Word) (data : List Byte) :
    (issue p i arg0 data).KeepsOvfClear := fun _ _ _ _ h => issue_ovf_clear h

theorem readField_keepsOvfClear (p : Config.Params) (c : CtxField) (file : List Byte) (pos n : Nat) :
    (readField p c file pos n).KeepsOvfClear := by
  unfold readField
  split
  · exact .fail _
  · exact issue_keepsOvfClear p _ none _

theorem readEntry_keepsOvfClear (p : Config.Params) (c : CtxField) (file : List Byte) (pos : Nat) :
    (readEntry p c file pos).KeepsOvfClear := by
  have field := readField_keepsOvfClear p c file
  refine (field _ _).andThen fun nw => ?_
  dsimp only
  split
  · exact .fail _
  · exact (field _ _).andThen fun _ => (field _ _).andThen fun _ => (field _ _).andThen fun _ =>
      (field _ _).andThen fun _ => (field _ _).andThen fun _ => (field _ _).andThen fun _ =>
      (field _ _).andThen fun _ => .give _

theorem readEntries_keepsOvfClear (p : Config.Params) (c : CtxField) (file : List Byte) (n : Nat) :
    ∀ pos, (readEntries p c file n pos).KeepsOvfClear := by
  induction n with
  | zero => intro pos; exact .give _
  | succ n ih =>
    intro pos
    exact (readEntry_keepsOvfClear p c file pos).andThen fun _ => (ih _).andThen fun _ => .give _

theorem readHeader_keepsOvfClear (p : Config.Params) (c : CtxField) (combined file : List Byte) (offset1 : Nat) :
    (readHeader p c combined file offset1).KeepsOvfClear := by
  have cmd := issue_keepsOvfClear p
  exact (cmd _ _ _).andThen fun _ => (cmd _ _ _).andThen fun _ => (cmd _ _ _).andThen fun _ =>
    (cmd _ _ _).andThen fun _ => (cmd _ _ _).andThen fun _ => .give _

theorem readTable_keepsOvfClear (p : Config.Params) (c : CtxField) (combined file : List Byte) (offset1 seed2 : Word)
    (count : Nat) : (readTable p c combined file offset1 seed2 count).KeepsOvfClear :=
  (issue_keepsOvfClear p _ _ _).andThen fun _ => (issue_keepsOvfClear p _ _ _).andThen fun _ =>
    readEntries_keepsOvfClear p c file count _

/-- The host accepted the filename with the secret as the operand of AKD.HKEY (R163, R280). -/
theorem readHeader_eq_ok_length {p : Config.Params} {c : CtxField} {combined file : List Byte} {offset1 : Nat}
    {s t : State} {h : Header} (e : readHeader p c combined file offset1 s = (.ok h, t)) :
    combined.length ≤ Config.bufcap := by
  obtain ⟨hkey, s', issued, -⟩ := Session.andThen_eq_ok e
  exact (issue_eq_ok issued).1

theorem readArchive_eq_ok {p : Config.Params} {secret filename file : List Byte} {cH cC : CtxField} {s t : State}
    {es : List Entry} (e : readArchive p secret cH cC filename file s = (.ok es, t)) :
    (filename ++ secret).length ≤ Config.bufcap ∧ t.ovf = false := by
  obtain ⟨out, s1, issued, e1⟩ := Session.andThen_eq_ok e
  obtain ⟨offset1, s2, read0, e2⟩ := Session.andThen_eq_ok e1
  obtain ⟨seed2, s3, read1, e3⟩ := Session.andThen_eq_ok e2
  have clear1 := issue_ovf_clear issued
  have clear3 : s3.ovf = false := by
    rw [readResult_res0] at read0
    rw [readResult_res1] at read1
    cases read0
    cases read1
    exact clear1
  split at e3
  · cases e3
  · obtain ⟨h, s4, header, e4⟩ := Session.andThen_eq_ok e3
    have clear4 := readHeader_keepsOvfClear p cH _ file _ clear3 header
    refine ⟨readHeader_eq_ok_length header, ?_⟩
    split at e4
    · exact readTable_keepsOvfClear p cC _ file _ _ _ clear4 e4
    · cases e4

/-- Settles O55: OVF survives every command but SYS.CLRERR, so a command that answers with OVF clear found room for all of
its operand; along a host program OVF clear is kept from one answer to the next. -/
theorem noCommandAnswersOnAShortenedOperand : Obligations.NoCommandAnswersOnAShortenedOperand := by
  refine ⟨?_, ?_, ?_, ?_⟩
  · intro p i arg0 data s h
    rcases issue_cases p i arg0 data s with ⟨-, e⟩ | ⟨hl, -⟩
    · exact e
    · exact absurd h (Nat.not_lt.mpr hl)
  · intro p i arg0 data s hi hl h
    have ho := drive_line_ovf p i arg0 data s hi h
    rcases issue_cases p i arg0 data s with ⟨hl', -⟩ | ⟨-, s1, rfl, ⟨-, e⟩ | ⟨ho', -⟩ | ⟨ho', -⟩⟩
    · exact absurd hl (Nat.not_le.mpr hl')
    · exact ⟨_, e, ho⟩
    · exact absurd (ho'.symm.trans ho) (by decide)
    · exact absurd (ho'.symm.trans ho) (by decide)
  · intro p i arg0 data out s t hi h
    obtain ⟨hl, s1, v, hs1, ho, he, hout, rfl⟩ := issue_eq_ok h
    have room : data = [] ∨ s.din.length + data.length ≤ Config.bufcap := by
      by_contra hno
      obtain ⟨hne, hlt⟩ := not_or.mp hno
      have hset := drive_line_ovf p i arg0 data s hi (.inr ⟨hne, Nat.lt_of_not_le hlt⟩)
      rw [← hs1, ho] at hset
      cases hset
    exact ⟨hl, ho, s1, hs1.trans (drive_line_of_room p i arg0 data s room), he, hout, rfl⟩
  · intro p secret cH cC filename file s t es h
    exact readArchive_eq_ok h

end Sys2Proof.Machine

/-! ## The memory family: the bus addresses of the control registers -/

namespace Sys2Proof.Machine

open Sys2Proof

theorem base_mod_four : Config.base % 4 = 0 := Nat.mul_mod_right 4 Config.baseWord

/-- Decoding a bus address inverts `regAddress`: nothing below BASE or off a word boundary names a register (R68). -/
theorem regOfAddress_eq_some_iff {addr n : Nat} : regOfAddress addr = some n ↔ addr = regAddress n := by
  unfold regOfAddress regAddress
  split
  case isTrue named =>
    obtain ⟨above, aligned⟩ := named
    rw [Option.some.injEq]
    omega
  case isFalse unnamed =>
    refine iff_of_false nofun fun e => unnamed ?_
    subst e
    exact ⟨Nat.le_add_right _ _, by rw [Nat.add_sub_cancel_left, Nat.mul_mod_right]⟩

@[simp] theorem regOfAddress_regAddress (n : Nat) : regOfAddress (regAddress n) = some n :=
  regOfAddress_eq_some_iff.mpr rfl

/-- Settles O48: the formula is `regAddress` itself, decoding inverts it, and BASE is four times a word number. -/
theorem registerAddresses : Obligations.RegisterAddresses :=
  fun n => ⟨rfl, regOfAddress_regAddress n, base_mod_four⟩

end Sys2Proof.Machine

/-! ## The encoding family: command words, assembler lines, refused ACE operands and one field read -/

namespace Sys2Proof

/-! ### why a word is no command (R86) -/

theorem decode_of_reserved_bits {w : Word} (h : reservedField w ≠ 0#20) : decode w = .error .reservedBits := by
  unfold decode
  rw [if_pos h]

theorem decode_of_unknown_opcode {w : Word} (hreserved : reservedField w = 0#20)
    (hmap : opcodeMap (opcField w) (ctxField w) = none) : decode w = .error .unknownOpcode := by
  unfold decode
  rw [if_neg (not_not.mpr hreserved), hmap]

theorem decode_of_ctx_not_zero {w : Word} {i : Instr} (hreserved : reservedField w = 0#20)
    (hmap : opcodeMap (opcField w) (ctxField w) = some i) (hplain : i.takesCtx = false) (hctx : ctxField w ≠ 0#4) :
    decode w = .error .ctxNotZero := by
  unfold decode
  rw [if_neg (not_not.mpr hreserved), hmap]
  exact if_pos ⟨hplain, hctx⟩

end Sys2Proof

namespace Sys2Proof.Machine

open Sys2Proof

/-- Settles O1: a decoded word is rebuilt from its three fields, and every encoding decodes. -/
theorem decodeAcceptsExactlyTheEncodings : Obligations.DecodeAcceptsExactlyTheEncodings :=
  fun _ i => ⟨eq_encode_of_decode, fun h => h ▸ decode_encode i⟩

/-- Settles O2: each legal word is an encoding, and each of the others meets the condition of its reason. -/
theorem specWordsDecode : Obligations.SpecWordsDecode :=
  ⟨decode_encode .sysNop, decode_encode .akdCsum, decode_encode (.aceInit 1#4), decode_encode (.aceDec 1#4),
    decode_encode .nkdLoad, decode_encode .npcDec, decode_of_reserved_bits (by decide),
    decode_of_unknown_opcode (by decide) (by decide),
    decode_of_ctx_not_zero (i := .akdCsum) (by decide) (by decide) rfl (by decide)⟩

/-- Settles O5: a line with room for its data, on an empty input queue. -/
theorem lineAccessesRunTheCommand : Obligations.LineAccessesRunTheCommand := by
  intro p l s hdin hlen
  have room : s.din.length + l.data.length ≤ Config.bufcap := by simpa [hdin] using hlen
  have ran := drive_line_of_room p l.instr l.arg0 l.data s (.inr room)
  rwa [hdin, List.nil_append] at ran

/-- The whole effect of ending a command in IllegalCommand (R244, R246). -/
theorem raiseError_illegalCommand (s : State) :
    s.raiseError .illegalCommand = { s with err := .illegalCommand, sIll := true, dout := [], din := [] } := rfl

/-- The whole effect of ending a command in ConfigurationError (R241, R246). -/
theorem raiseError_configuration (s : State) :
    s.raiseError .configuration = { s with err := .configuration, sCfg := true, dout := [], din := [] } := rfl

/-- Settles O21: the context number is checked before the key length, and each check ends in its error. -/
theorem aceCommandsRefuseBadOperands : Obligations.AceCommandsRefuseBadOperands := by
  intro s c
  refine ⟨fun hc hlen => ?_, fun hc => ?_⟩
  · rw [exec_eq_runWith, ← raiseError_configuration]
    rcases cmdAceInit_cases Config.hw c s with ⟨hout, -⟩ | ⟨-, -, e⟩ | ⟨-, hkey, -⟩
    · exact absurd hc (Nat.not_lt.mpr hout)
    · exact congrArg _ e
    · exact absurd hkey hlen
  · have refused : ∀ i : Instr, i.wf = false →
        exec i s = .next { s with err := .illegalCommand, sIll := true, dout := [], din := [] } := fun i hi => by
      rw [exec_eq_runWith, runWith_of_not_wf _ s hi, raiseError_illegalCommand]
    have outOfRange : decide (c.toNat < Config.nctx) = false := decide_eq_false (Nat.not_lt.mpr hc)
    exact ⟨refused (.aceInit c) outOfRange, refused (.aceDec c) outOfRange⟩

/-- ACE.DEC on a valid context succeeds with what `decrypt` gives (R130). -/
theorem cmdAceDec_of_valid (p : Config.Params) {c : CtxField} {k : Ctx} {s : State} (hk : s.ctxAt c = some k) :
    cmdAceDec p c s = (s.setCtx c (decrypt p.rom s.din k).2).succeed { out := (decrypt p.rom s.din k).1 } := by
  rcases cmdAceDec_cases p c s with ⟨hout, -⟩ | ⟨-, hnone, -⟩ | ⟨k', -, hk', e⟩
  · have absent : s.ctxAt c = none := dif_neg (Nat.not_lt.mpr hout)
    cases hk.symm.trans absent
  · cases hk.symm.trans hnone
  · cases hk.symm.trans hk'
    exact e

/-- A command whose line ends with OVF clear and ERR 0 answers with the output queue, which it leaves empty (R92). -/
theorem issue_of_success {p : Config.Params} {i : Instr} {arg0 : Option Word} {data : List Byte} {s s1 : State}
    (hlen : data.length ≤ Config.bufcap)
    (hdrive : drive p (Line.events { instr := i, arg0 := arg0, data := data }) s = s1)
    (hovf : s1.ovf = false) (herr : s1.err = .ok) :
    ∃ v, issue p i arg0 data s = (.ok s1.dout, { s1 with dout := [], rdata := v }) := by
  subst hdrive
  rcases issue_cases p i arg0 data s with ⟨long, -⟩ | ⟨-, _, rfl, ⟨set, -⟩ | ⟨-, failed, -⟩ | ⟨-, -, answered⟩⟩
  · exact absurd hlen (Nat.not_le.mpr long)
  · cases set.symm.trans hovf
  · exact absurd herr failed
  · exact answered

/-- Settles O51: the line runs ACE.DEC on the field alone, which succeeds, and the host pops what it put into DOUT. -/
theorem fieldReadIsOneDecrypt : Obligations.FieldReadIsOneDecrypt := by
  intro p c data s k hdin hc hovf hlen hk
  have ran := (lineAccessesRunTheCommand p ⟨.aceDec c, none, data⟩ s hdin hlen).trans (cmdAceDec_of_valid p hk)
  obtain ⟨v, answered⟩ := issue_of_success hlen ran (by simpa using hovf) rfl
  exact ⟨_, answered, State.ctxAt_setCtx_self c _ _ hc, rfl, rfl, rfl, by simpa using hovf⟩

end Sys2Proof.Machine

/-! ## The archive key family: the AKD commands and the header they find -/

namespace Sys2Proof.Machine

open Sys2Proof

/-! ### AKD.CSUM -/

theorem byteSum_le (d : List Byte) : byteSum d ≤ 255 * d.length := by
  induction d with
  | nil => exact Nat.zero_le _
  | cons b d ih =>
    have hb : b.toNat ≤ 255 := Nat.le_of_lt_succ b.isLt
    simp only [byteSum, List.map_cons, List.sum_cons, List.length_cons] at ih ⊢
    omega

/-- The whole effect of AKD.CSUM (R102, R92). -/
theorem cmdAkdCsum_eq (s : State) :
    cmdAkdCsum s = { s with
      err := .ok, dout := [], din := []
      res0 := BitVec.ofNat 32 (byteSum s.din % 312 + 30)
      res1 := BitVec.ofNat 32 (3 * byteSum s.din % 212 + 33)
      res2 := BitVec.ofNat 32 (3 * byteSum s.din) } := by
  unfold cmdAkdCsum checksumOffsets State.data
  rw [charSums_eq]
  rfl

/-- Settles O12: the running sums have a closed form, and 3 * 255 * BUFCAP fits a result register. -/
theorem csumWritesTheOffsets : Obligations.CsumWritesTheOffsets := by
  intro s
  refine ⟨(exec_eq_runWith _ s).trans (congrArg _ (cmdAkdCsum_eq s)), fun hlen => ?_⟩
  have hsum := byteSum_le s.din
  rw [Config.bufcap] at hlen
  rw [BitVec.toNat_ofNat]
  exact Nat.mod_eq_of_lt (by omega)

/-! ### the two key functions -/

theorem byteAt_of_getElem? {d : List Byte} {i : Nat} {b : Byte} (h : d[i]? = some b) : byteAt d i = b := by
  rw [byteAt, List.getD_eq_getElem?_getD, h, Option.getD_some]

/-- The buffer of R108 has more than 16 bytes, and the key is its first 16. -/
theorem length_take_buffer (f : Nat → Byte) : (((List.range 128).map f).take 16).length = 16 := by simp

theorem getElem?_take_buffer (f : Nat → Byte) {i : Nat} (h : i < 16) :
    (((List.range 128).map f).take 16)[i]? = some (f i) := by
  have inBuffer : i < 128 := by omega
  rw [List.getElem?_take_of_lt h, List.getElem?_map, List.getElem?_range inBuffer, Option.map_some]

theorem ofNat_mod_byte (n : Nat) : BitVec.ofNat 8 (n % 256) = BitVec.ofNat 8 n :=
  BitVec.eq_of_toNat_eq (by simp)

/-- Byte i of the header key from the byte its forward cyclic index names (R104). -/
theorem headerKeyByte_of_getElem? {d : List Byte} {i : Nat} {b : Byte} (h : d[i % d.length]? = some b) :
    headerKeyByte d i = BitVec.ofNat 8 i + b := by
  rw [headerKeyByte, byteAt_of_getElem? h, ofNat_mod_byte, BitVec.ofNat_add, BitVec.ofNat_toNat, BitVec.setWidth_eq]

/-- The Euclidean index of R106 is the only position in range congruent to seed - i (R14). -/
theorem contentKeyIndex_eq {seed i n index : Nat} (hlt : index < n)
    (hcong : (n : Int) ∣ ((seed : Int) - (i : Int)) - (index : Int)) : contentKeyIndex seed i n = index := by
  have residue : ((seed : Int) - (i : Int)) % (n : Int) = index := by
    rw [Int.emod_eq_emod_iff_emod_sub_eq_zero.mpr (Int.emod_eq_zero_of_dvd hcong)]
    exact Int.emod_eq_of_lt (Int.natCast_nonneg _) (Int.ofNat_lt.mpr hlt)
  rw [contentKeyIndex, residue, Int.toNat_natCast]

/-- Byte i of the content key from the byte its backward cyclic index names (R106). -/
theorem contentKeyByte_of_getElem? {d : List Byte} {seed i index : Nat} {b : Byte} (h : d[index]? = some b)
    (hcong : (d.length : Int) ∣ ((seed : Int) - (i : Int)) - (index : Int)) :
    contentKeyByte d seed i = BitVec.ofNat 8 (i + (i % 3 + 2) * b.toNat) := by
  obtain ⟨inRange, -⟩ := List.getElem?_eq_some_iff.mp h
  rw [contentKeyByte, contentKeyIndex_eq inRange hcong, byteAt_of_getElem? h, ofNat_mod_byte]

/-- Settles O13: the empty string is refused; on another the key is the first 16 bytes of the cycled buffer. -/
theorem hkeyCyclesTheString : Obligations.HkeyCyclesTheString := by
  intro s
  rw [exec_eq_runWith, runWith, ← raiseError_configuration]
  rcases cmdAkdHkey_cases s with ⟨hempty, e⟩ | ⟨hne, e⟩
  · exact ⟨fun hne => absurd hempty hne, fun _ => congrArg _ e⟩
  · refine ⟨fun _ => ⟨_, congrArg _ e, rfl, length_take_buffer _, fun i hi b hb => ?_⟩, fun hempty => absurd hempty hne⟩
    rw [← headerKeyByte_of_getElem? hb]
    exact getElem?_take_buffer _ hi

/-- Settles O14: as for AKD.HKEY, and the congruence names the byte the Euclidean index picks. -/
theorem ckeyCyclesBackward : Obligations.CkeyCyclesBackward := by
  intro s
  rw [exec_eq_runWith, runWith, ← raiseError_configuration]
  rcases cmdAkdCkey_cases s with ⟨hempty, e⟩ | ⟨hne, e⟩
  · exact ⟨fun hne => absurd hempty hne, fun _ => congrArg _ e⟩
  · refine ⟨fun _ => ⟨_, congrArg _ e, rfl, length_take_buffer _, fun i index b hi hb hcong => ?_⟩,
      fun hempty => absurd hempty hne⟩
    rw [← contentKeyByte_of_getElem? hb hcong]
    exact getElem?_take_buffer _ hi

/-! ### the archive sequence up to its entries -/

/-- AKD.CSUM issued on an empty input queue leaves the sums of its own operand in RES0 and RES1 (R102, R162). -/
theorem issue_akdCsum_results {p : Config.Params} {filename out : List Byte} {s t : State} (hdin : s.din = [])
    (issued : issue p .akdCsum none filename s = (.ok out, t)) :
    t.res0.toNat = byteSum filename % 312 + 30 ∧ t.res1.toNat = 3 * byteSum filename % 212 + 33 := by
  obtain ⟨hlen, _, v, rfl, -, -, -, rfl⟩ := issue_eq_ok issued
  have ran := (lineAccessesRunTheCommand p ⟨.akdCsum, none, filename⟩ s hdin hlen).trans (cmdAkdCsum_eq _)
  rw [ran]
  exact ⟨Nat.mod_eq_of_lt (by omega), Nat.mod_eq_of_lt (by omega)⟩

/-- A walk that ends well yields the declared number of entries (R167). -/
theorem readEntries_length {p : Config.Params} {c : CtxField} {file : List Byte} {count pos : Nat} {s t : State}
    {es : List Entry} (h : readEntries p c file count pos s = (.ok es, t)) : es.length = count := by
  induction count generalizing pos s es with
  | zero =>
    cases h
    rfl
  | succ n ih =>
    obtain ⟨x, s1, -, later⟩ := Session.andThen_eq_ok h
    obtain ⟨rest, s2, walk, given⟩ := Session.andThen_eq_ok later
    cases given
    rw [List.length_cons, ih walk]

theorem readTable_length {p : Config.Params} {c : CtxField} {combined file : List Byte} {offset1 seed2 : Word}
    {count : Nat} {s t : State} {es : List Entry}
    (h : readTable p c combined file offset1 seed2 count s = (.ok es, t)) : es.length = count := by
  obtain ⟨ckey, s1, -, keyed⟩ := Session.andThen_eq_ok h
  obtain ⟨out, s2, -, walk⟩ := Session.andThen_eq_ok keyed
  exact readEntries_length walk

/-- Settles O49: a sequence that yields entries got past each of its parts and took neither of its two refusals. -/
theorem archiveNeedsAnIntactHeader : Obligations.ArchiveNeedsAnIntactHeader := by
  intro p secret cH cC filename file s t es yields
  obtain ⟨out, s1, issued, yields⟩ := Session.andThen_eq_ok yields
  obtain ⟨offset1, s2, read0, yields⟩ := Session.andThen_eq_ok yields
  obtain ⟨seed2, s3, read1, yields⟩ := Session.andThen_eq_ok yields
  split at yields
  case isTrue => cases yields
  case isFalse inFile =>
    obtain ⟨h, s4, header, yields⟩ := Session.andThen_eq_ok yields
    split at yields
    case isFalse => cases yields
    case isTrue intact =>
      refine ⟨out, offset1, seed2, h, s1, s2, s3, s4, issued, read0, read1, Nat.le_of_not_lt inFile, header,
        of_decide_eq_true intact, readTable_length yields, yields, fun hdin => ?_⟩
      rw [readResult_res0] at read0
      cases read0
      rw [readResult_res1] at read1
      cases read1
      exact issue_akdCsum_results hdin issued

end Sys2Proof.Machine

/-! ## The archive cipher family: the primitives, the schedules, ACE.DEC and the fields of an entry -/

namespace Sys2Proof.Machine

open Sys2Proof

/-! ### words as four bytes -/

/-- The word of four bytes, the first byte most significant (R12, D21). -/
def ofBytes (b3 b2 b1 b0 : Byte) : Word := b3 ++ b2 ++ b1 ++ b0

theorem byteN_ofBytes (b3 b2 b1 b0 : Byte) :
    byteN (ofBytes b3 b2 b1 b0) 0 = b0 ∧ byteN (ofBytes b3 b2 b1 b0) 1 = b1 ∧
    byteN (ofBytes b3 b2 b1 b0) 2 = b2 ∧ byteN (ofBytes b3 b2 b1 b0) 3 = b3 := by
  refine ⟨BitVec.extractLsb'_append_eq_right, ?_, ?_, ?_⟩
  · exact (BitVec.extractLsb'_append_eq_of_le (by decide)).trans BitVec.extractLsb'_append_eq_right
  · exact (BitVec.extractLsb'_append_eq_of_le (by decide)).trans
      ((BitVec.extractLsb'_append_eq_of_le (by decide)).trans BitVec.extractLsb'_append_eq_right)
  · exact (BitVec.extractLsb'_append_eq_of_le (by decide)).trans
      ((BitVec.extractLsb'_append_eq_of_le (by decide)).trans BitVec.extractLsb'_append_eq_left)

theorem ofBytes_or (a3 a2 a1 a0 b3 b2 b1 b0 : Byte) :
    ofBytes a3 a2 a1 a0 ||| ofBytes b3 b2 b1 b0 = ofBytes (a3 ||| b3) (a2 ||| b2) (a1 ||| b1) (a0 ||| b0) := by
  have pairs : (a3 ++ a2 ++ a1) ||| (b3 ++ b2 ++ b1) = (a3 ||| b3) ++ (a2 ||| b2) ++ (a1 ||| b1) := by
    rw [BitVec.or_append, BitVec.or_append]
  exact BitVec.or_append.trans (congrArg (· ++ (a0 ||| b0)) pairs)

theorem ofBytes_eq_append (b3 b2 b1 b0 : Byte) : ofBytes b3 b2 b1 b0 = b3 ++ (b2 ++ b1 ++ b0) := by
  apply BitVec.eq_of_getLsbD_eq
  intro i hi
  simp only [ofBytes, BitVec.getLsbD_append]
  by_cases low : i < 24
  · simp [low, show i - 8 - 8 < 8 by omega]
  · simp [low, show ¬ i < 8 by omega, show ¬ i - 8 < 8 by omega, show ¬ i - 16 < 8 by omega, Nat.sub_sub]

theorem shl32_append (b : Byte) (t : BitVec 24) : shl32 (b ++ t) 8 = t ++ 0#8 := by
  apply BitVec.eq_of_getLsbD_eq
  intro i hi
  simp only [shl32, BitVec.getLsbD_shiftLeft, BitVec.getLsbD_append]
  by_cases low : i < 8
  · simp [low]
  · have inTail : i - 8 < 24 := by omega
    simp [low, inTail, hi]

theorem shr32_append (u : BitVec 24) (b : Byte) : shr32 (u ++ b) 8 = 0#8 ++ u := by
  apply BitVec.eq_of_getLsbD_eq
  intro i hi
  simp only [shr32, BitVec.getLsbD_ushiftRight, BitVec.getLsbD_append]
  by_cases inTail : i < 24
  · simp [inTail]
  · simp [inTail, BitVec.getLsbD_of_ge u i (Nat.le_of_not_lt inTail)]

theorem shl32_ofBytes (b3 b2 b1 b0 : Byte) : shl32 (ofBytes b3 b2 b1 b0) 8 = ofBytes b2 b1 b0 0#8 := by
  rw [ofBytes_eq_append]
  exact shl32_append b3 (b2 ++ b1 ++ b0)

/-- The XOR of all four table entries comes from the four bytes of the word (R121). -/
theorem sbox_ofBytes (rom : Config.Rom) (b3 b2 b1 b0 : Byte) :
    sbox rom (ofBytes b3 b2 b1 b0) = rom .t0 b0 ^^^ rom .t1 b1 ^^^ rom .t2 b2 ^^^ rom .t3 b3 := by
  obtain ⟨h0, h1, h2, h3⟩ := byteN_ofBytes b3 b2 b1 b0
  rw [sbox, h0, h1, h2, h3]

/-- Settles O15: each shift of F discards the byte that indexes a table. -/
theorem primitivesSplitOverBytes : Obligations.PrimitivesSplitOverBytes := by
  refine ⟨fun rom => ?_, fun rom b0 b1 b2 b3 => sbox_ofBytes rom b3 b2 b1 b0, fun rom t3 s0 t u e1 e2 => ?_⟩
  · calc feedback rom 0#32 0#32 []
        = 0#32 ^^^ 0#32 ^^^ rom .divtable 0#8 ^^^ rom .multable 0#8 := rfl
      _ = rom .multable 0#8 ^^^ rom .divtable 0#8 := by
        rw [BitVec.xor_self, BitVec.zero_xor, BitVec.xor_comm]
  · have discarded : byteN (u ++ s0) 0 = s0 ∧ byteN (t3 ++ t) 3 = t3 :=
      ⟨BitVec.extractLsb'_append_eq_right, BitVec.extractLsb'_append_eq_left⟩
    obtain ⟨right, left⟩ := discarded
    rw [feedback, shl32_append, shr32_append, right, left]
    rfl

/-! ### key words and seeding -/

theorem shl32_add (w : Word) (m n : Nat) : shl32 w (m + n) = shl32 (shl32 w m) n := BitVec.shiftLeft_add w m n

/-- A byte widened by R15 has three copies of its sign above it. -/
theorem sext8to32_eq_ofBytes (b : Byte) :
    sext8to32 b = ofBytes (BitVec.fill 8 b.msb) (BitVec.fill 8 b.msb) (BitVec.fill 8 b.msb) b := by
  rw [sext8to32, BitVec.signExtend_eq_append_of_le (by decide)]
  cases b.msb <;> rfl

/-- A key word byte by byte: each byte is merged with the signs of all bytes after it (R123, D22). -/
theorem keyWord_eq_ofBytes (b0 b1 b2 b3 : Byte) :
    keyWord b0 b1 b2 b3
      = ofBytes (b0 ||| BitVec.fill 8 b1.msb ||| BitVec.fill 8 b2.msb ||| BitVec.fill 8 b3.msb)
        (b1 ||| BitVec.fill 8 b2.msb ||| BitVec.fill 8 b3.msb)
        (b2 ||| BitVec.fill 8 b3.msb) b3 := by
  rw [keyWord, shl32_add _ 8 16, shl32_add _ 8 8, shl32_add _ 8 8]
  simp only [sext8to32_eq_ofBytes, shl32_ofBytes, ofBytes_or, BitVec.zero_or, BitVec.or_zero]

/-- Settles O16: the bytes before the last one with its top bit set are all ones, the others are as given. -/
theorem keyWordKeepsTheSignExtension : Obligations.KeyWordKeepsTheSignExtension := by
  intro b0 b1 b2 b3
  rw [keyWord_eq_ofBytes]
  refine ⟨fun h1 h2 h3 => ?_, fun h1 h2 h3 => ?_, fun h2 h3 => ?_, fun h3 => ?_⟩
  · simp only [h1, h2, h3, BitVec.fill_false, BitVec.or_zero]
    rfl
  · simp only [h1, h2, h3, BitVec.fill_true, BitVec.fill_false, BitVec.or_zero, BitVec.or_allOnes]
    rfl
  · simp only [h2, h3, BitVec.fill_true, BitVec.fill_false, BitVec.or_zero, BitVec.or_allOnes]
    rfl
  · simp only [h3, BitVec.fill_true, BitVec.or_allOnes]
    rfl

theorem not32_eq_not (a : Word) : not32 a = ~~~a := by
  rw [not32, show 0xFFFFFFFF#32 = BitVec.allOnes 32 from rfl, BitVec.xor_allOnes]

/-- Settles O17: the pattern entry by entry. -/
theorem seedingPattern : Obligations.SeedingPattern := by
  intro k j h
  simp only [← not32_eq_not]
  interval_cases j <;> exact ⟨rfl, rfl, rfl, rfl⟩

/-! ### the order of the registers in the schedules -/

/-- The register that step n of a schedule visits: from 15 down to 0, over and over (R125, R128). -/
def visited (n : Nat) : Fin 16 := (Fin.ofNat 16 n).rev

theorem visited_eq_of_val {n : Nat} {a : Fin 16} (h : a.val = 15 - n % 16) : visited n = a := by
  apply Fin.ext
  simp [visited, Fin.val_rev]
  omega

/-- The core after the first n steps of a schedule. -/
def trajectory (step : Core → Fin 16 → Core) (k : Core) (n : Nat) : Core :=
  ((List.range n).map visited).foldl step k

theorem trajectory_succ (step : Core → Fin 16 → Core) (k : Core) (n : Nat) :
    trajectory step k (n + 1) = step (trajectory step k n) (visited n) := by
  simp [trajectory, List.range_succ]

theorem mixingPass_eq_trajectory (rom : Config.Rom) (k : Core) :
    mixingPass rom k = trajectory (mixStep rom) k 32 := by
  have order : (List.range 32).map visited = positionsDown ++ positionsDown := by decide
  rw [trajectory, order, List.foldl_append]
  rfl

theorem positionsDown_split (p : Fin 16) :
    positionsDown = (List.range p).map visited ++ p.rev :: positionsDown.drop (p + 1) := by
  revert p; decide

theorem rev_notMem_drop_positionsDown (p : Fin 16) : p.rev ∉ positionsDown.drop (p + 1) := by
  revert p; decide

/-! ### one step of a schedule -/

theorem get_set_self (x : Vector Word 16) (a : Fin 16) (v : Word) : (x.set a.val v).get a = v :=
  Vector.getElem_set_self a.isLt

theorem get_set_other (x : Vector Word 16) {a b : Fin 16} (v : Word) (h : b ≠ a) :
    (x.set a.val v).get b = x.get b :=
  Vector.getElem_set_ne a.isLt b.isLt fun e => h (Fin.ext e.symm)

theorem add_eleven_ne (a : Fin 16) : a + 11 ≠ a := by
  revert a; decide

/-- What the mixing step at a register leaves in the accumulators, in the register and elsewhere (R126). -/
theorem mixStep_effect (rom : Config.Rom) (k : Core) (a : Fin 16) :
    (mixStep rom k a).a = k.b + k.x.get (a + 11) ∧
    (mixStep rom k a).b = sbox rom k.a ∧
    (mixStep rom k a).x.get a
      = feedback rom (k.x.get a) (k.x.get (a + 5)) [k.x.get (a + 14), (k.a + k.x.get (a + 1)) ^^^ k.b] ∧
    ∀ b, b ≠ a → (mixStep rom k a).x.get b = k.x.get b :=
  ⟨congrArg (k.b + ·) (get_set_other k.x _ (add_eleven_ne a)), rfl, get_set_self k.x a _,
    fun _ hb => get_set_other k.x _ hb⟩

/-- What the regeneration step at a register leaves in the accumulators, in the register and elsewhere (R128). -/
theorem regenStep_effect (rom : Config.Rom) (k : Core) (a : Fin 16) :
    (regenStep rom k a).1.a = k.b + k.x.get (a + 11) ∧
    (regenStep rom k a).1.b = sbox rom k.a ∧
    (regenStep rom k a).1.x.get a
      = feedback rom (k.x.get a) (k.x.get (a + 5)) [k.x.get (a + 14)] ∧
    ∀ b, b ≠ a → (regenStep rom k a).1.x.get b = k.x.get b :=
  ⟨rfl, rfl, get_set_self k.x a _, fun _ hb => get_set_other k.x _ hb⟩

/-- The keystream word of a step from the core it leaves (R128). -/
theorem regenStep_word (rom : Config.Rom) (k : Core) (a : Fin 16) :
    (regenStep rom k a).2
      = ((regenStep rom k a).1.a + (regenStep rom k a).1.x.get a) ^^^ (regenStep rom k a).1.b
        ^^^ (regenStep rom k a).1.x.get (a + 15) := rfl

/-- Settles O18: the cores of the sequence are those between the 32 steps. -/
theorem mixingPassFollowsTheSchedule : Obligations.MixingPassFollowsTheSchedule := by
  intro rom k
  refine ⟨trajectory (mixStep rom) k, rfl, (mixingPass_eq_trajectory rom k).symm, fun n _ a ha => ?_⟩
  rw [trajectory_succ, visited_eq_of_val ha]
  exact mixStep_effect rom _ a

/-! ### the regeneration of a block -/

theorem regenSteps_fst (rom : Config.Rom) (l : List (Fin 16)) (k : Core) (ks : Vector Word 16) :
    (regenSteps rom l k ks).1 = l.foldl (fun k a => (regenStep rom k a).1) k := by
  induction l generalizing k ks with
  | nil => rfl
  | cons a l ih => exact ih _ _

/-- The core after the first n steps of a regeneration. -/
def regenCore (rom : Config.Rom) : Core → Nat → Core := trajectory fun k a => (regenStep rom k a).1

theorem regenCore_succ (rom : Config.Rom) (k : Core) (p : Fin 16) :
    regenCore rom k (p + 1) = (regenStep rom (regenCore rom k p) p.rev).1 := by
  rw [regenCore, trajectory_succ, visited_eq_of_val (a := p.rev) (by simp [Fin.val_rev]; omega)]

theorem regenerateBlock_fst (rom : Config.Rom) (k : Core) : (regenerateBlock rom k).1 = regenCore rom k 16 := by
  have order : (List.range 16).map visited = positionsDown := by decide
  rw [regenerateBlock, regenSteps_fst, regenCore, trajectory, order]

/-- Keystream word p is the word of step p: no later step writes its place (R128). -/
theorem regenerateBlock_word (rom : Config.Rom) (k : Core) (p : Fin 16) :
    (regenerateBlock rom k).2.get p = (regenStep rom (regenCore rom k p) p.rev).2 := by
  rw [regenerateBlock, positionsDown_split p, regenSteps_append, regenSteps,
    regenSteps_ks_get rom _ _ _ p (rev_notMem_drop_positionsDown p), regenSteps_fst]
  simp only [Fin.rev_rev]
  exact get_set_self _ p _

/-- Settles O19: the cores of the sequence are those between the 16 steps. -/
theorem regenerateBlockFollowsTheSchedule : Obligations.RegenerateBlockFollowsTheSchedule := by
  intro rom k
  refine ⟨regenCore rom k, rfl, (regenerateBlock_fst rom k).symm, fun p a ha => ?_⟩
  obtain rfl : a = p.rev := Fin.ext (by simp [ha, Fin.val_rev])
  obtain ⟨accA, accB, written, others⟩ := regenStep_effect rom (regenCore rom k p) p.rev
  rw [regenCore_succ, regenerateBlock_word]
  exact ⟨accA, accB, written, others, regenStep_word rom _ _⟩

/-! ### ACE.DEC on special operands and keystreams -/

/-- The whole effect of ending a command in NotInitialised (R245, R246). -/
theorem raiseError_notInitialised (s : State) :
    s.raiseError .notInitialised = { s with err := .notInitialised, sNinit := true, dout := [], din := [] } := rfl

/-- An empty operand leaves the context as it is (R133). -/
theorem decrypt_nil (rom : Config.Rom) (k : Ctx) : decrypt rom [] k = ([], k) := rfl

/-- Settles O23: writing back the unchanged context changes nothing; without a context the command is refused. -/
theorem aceDecOfNothing : Obligations.AceDecOfNothing := by
  intro s c hc hdin
  rw [exec_eq_runWith, runWith, ← raiseError_notInitialised]
  refine ⟨fun k hk => ?_, fun hnone => ?_⟩
  · rw [cmdAceDec_of_valid Config.hw hk, hdin, decrypt_nil, State.setCtx_same c k s hk]
    rfl
  · rcases cmdAceDec_cases Config.hw c s with ⟨out, -⟩ | ⟨-, -, e⟩ | ⟨k, -, hk, -⟩
    · exact absurd hc (Nat.not_lt.mpr out)
    · rw [e]
    · cases hk.symm.trans hnone

theorem le_replicate_zero (n : Nat) : le (List.replicate n 0#8) = 0 := by
  induction n with
  | zero => rfl
  | succ n ih => simp [List.replicate_succ, le, ih]

/-- Byte strings of one length with the same number are the same (R16). -/
theorem eq_of_le_eq {a b : List Byte} (hlen : a.length = b.length) (h : le a = le b) : a = b := by
  rw [← leBytes_le a, ← leBytes_le b, hlen, h]

/-- Settles O26: the difference to zero, from what ACE.DEC answers for any keystream (R131). -/
theorem zeroKeystreamReturnsTheCiphertext : Obligations.ZeroKeystreamReturnsTheCiphertext := by
  intro s c k hc hk hzero
  obtain ⟨t, -, -, ran, frame, ⟨hlen, hle⟩, -⟩ := aceDecSubtractsTheNextKeystreamBytes s c k hc hk
  have inRange : (le s.din : Int) < (2 ^ (8 * s.din.length) : Nat) := by
    rw [pow_mul]
    exact Int.ofNat_lt.mpr (le_lt s.din)
  rw [hzero, le_replicate_zero, Int.natCast_zero, Int.sub_zero, Int.emod_eq_of_lt (Int.natCast_nonneg _) inRange] at hle
  refine ⟨t, ran, ?_, eq_of_le_eq hlen (Int.ofNat_inj.mp hle)⟩
  rw [frame]

/-! ### the subtraction byte by byte -/

/-- The n bytes of an integer modulo 256^n, the lowest byte first (R16). -/
def leBytesInt (z : Int) (n : Nat) : List Byte := leBytes (z % (256 ^ n : Nat)).toNat n

theorem emod_pow_succ_emod (z : Int) (n : Nat) : z % (256 ^ (n + 1) : Nat) % 256 = z % 256 :=
  Int.emod_emod_of_dvd z ⟨(256 ^ n : Nat), by rw [pow_succ']; rfl⟩

theorem emod_pow_succ_ediv (z : Int) (n : Nat) : z % (256 ^ (n + 1) : Nat) / 256 = z / 256 % (256 ^ n : Nat) := by
  have hpow : ((256 ^ (n + 1) : Nat) : Int) = 256 * (256 ^ n : Nat) := by rw [pow_succ']; rfl
  rw [hpow, Int.emod_def, Int.emod_def, Int.ediv_ediv_of_nonneg (by decide), Int.mul_assoc]
  omega

theorem leBytesInt_succ (z : Int) (n : Nat) :
    leBytesInt z (n + 1) = BitVec.ofInt 8 z :: leBytesInt (z / 256) n := by
  have nonneg : 0 ≤ z % (256 ^ (n + 1) : Nat) := Int.emod_nonneg z (by positivity)
  rw [leBytesInt, leBytes, leBytesInt, ← emod_pow_succ_ediv]
  congr 1
  · apply BitVec.eq_of_toNat_eq
    have low := emod_pow_succ_emod z n
    simp only [BitVec.toNat_ofNat, BitVec.toNat_ofInt]
    omega
  · congr 1
    omega

theorem subtractLE_eq_leBytesInt (c k : List Byte) :
    subtractLE c k = leBytesInt ((le c : Int) - le k) c.length := by
  rw [subtractLE, leBytesInt, pow_mul]
  rfl

/-- The byte-serial form with a borrow coming in; the borrow going out is what a division by 256 rounds away (R132). -/
theorem serialSubtract_eq_leBytesInt (c k : List Byte) (borrow : Nat) (hlen : c.length = k.length) (hb : borrow ≤ 1) :
    serialSubtract borrow c k = leBytesInt ((le c : Int) - le k - borrow) c.length := by
  induction c generalizing k borrow with
  | nil => rfl
  | cons d ds ih =>
    cases k with
    | nil => cases hlen
    | cons b bs =>
      have hd := d.isLt
      have hk := b.isLt
      have hborrow : ((le (d :: ds) : Int) - le (b :: bs) - borrow) / 256
          = (le ds : Int) - le bs - (if (d.toNat : Int) - b.toNat - borrow < 0 then 1 else 0 : Nat) := by
        simp only [le]
        split <;> omega
      have hbyte : BitVec.ofInt 8 ((le (d :: ds) : Int) - le (b :: bs) - borrow)
          = BitVec.ofInt 8 ((d.toNat : Int) - b.toNat - borrow) := by
        apply BitVec.eq_of_toNat_eq
        simp only [le, BitVec.toNat_ofInt]
        omega
      rw [List.length_cons, leBytesInt_succ, hborrow, hbyte, ← ih bs _ (Nat.succ.inj hlen) (by split <;> omega)]
      rfl

/-- Settles O25: both sides are the bytes of the same difference. -/
theorem subtractionIsBorrowSerial : Obligations.SubtractionIsBorrowSerial := by
  intro c k hlen
  rw [subtractLE_eq_leBytesInt, serialSubtract_eq_leBytesInt c k 0 hlen (Nat.zero_le 1), Nat.cast_zero, Int.sub_zero]

/-! ### the fields of an entry -/

/-- What the fields read since s left in t: context c holds k, ready for the next field, and no other context changed. -/
def FieldsRead (c : CtxField) (s : State) (k : Ctx) (t : State) : Prop :=
  t.ReadyFor c k ∧ ∀ d, d ≠ c → t.ctxAt d = s.ctxAt d

theorem decrypt_fst_length (rom : Config.Rom) (data : List Byte) (k : Ctx) :
    (decrypt rom data k).1.length = data.length := by
  rw [decrypt_eq, subtractLE_length]

theorem slice_length_of_le {file : List Byte} {pos n : Nat} (h : pos + n ≤ file.length) :
    (slice file pos n).length = n := by
  rw [slice_length]
  omega

/-- A field that lies in the file and fits the input queue is one decrypt, which touches no other context (R167). -/
theorem readField_of_fieldsRead (p : Config.Params) {c : CtxField} (file : List Byte) {s t : State} {k : Ctx}
    (pos n : Nat) (hread : FieldsRead c s k t) (hfile : pos + n ≤ file.length) (hcap : n ≤ Config.bufcap) :
    ∃ out k' t', readField p c file pos n t = (.ok out, t') ∧ decrypt p.rom (slice file pos n) k = (out, k') ∧
      out.length = n ∧ FieldsRead c s k' t' ∧ t'.dout = [] := by
  obtain ⟨⟨hdin, hovf, hc, hk⟩, others⟩ := hread
  have hlen := slice_length_of_le hfile
  have fits : (slice file pos n).length ≤ Config.bufcap := hlen.trans_le hcap
  have ran := (lineAccessesRunTheCommand p ⟨.aceDec c, none, slice file pos n⟩ t hdin fits).trans
    (cmdAceDec_of_valid p hk)
  obtain ⟨v, answered⟩ := issue_of_success fits ran (by simpa using hovf) rfl
  have issued : readField p c file pos n = issue p (.aceDec c) none (slice file pos n) := by
    rcases takeFile_cases file pos n with ⟨short, -⟩ | ⟨-, e⟩
    · exact absurd hfile (Nat.not_le.mpr short)
    · rw [readField, e]
  refine ⟨_, _, _, (congrFun issued t).trans answered, rfl, (decrypt_fst_length p.rom _ k).trans hlen,
    ⟨?_, ?_⟩, rfl⟩
  · exact ⟨rfl, by simpa using hovf, hc, State.ctxAt_setCtx_self c _ _ hc⟩
  · exact fun d hd => (State.ctxAt_setCtx_other c d _ _ hd).trans (others d hd)

/-- Settles O53: eight fields, each read on the context and from the state the one before left. -/
theorem entryReadsItsFieldsInOrder : Obligations.EntryReadsItsFieldsInOrder := by
  intro p c file pos n s k hready hn hcap hfile
  have four : 4 ≤ Config.bufcap := by decide
  have field := @readField_of_fieldsRead p c file s
  obtain ⟨b0, k0, s0, read0, dec0, -, done, -⟩ := field pos 4 ⟨hready, fun _ _ => rfl⟩ (by omega) four
  obtain ⟨name, k1, s1, read1, dec1, nameLength, done, -⟩ := field (pos + 4) (2 * n) done (by omega) hcap
  obtain ⟨b2, k2, s2, read2, dec2, -, done, -⟩ := field (pos + 4 + 2 * n) 4 done (by omega) four
  obtain ⟨b3, k3, s3, read3, dec3, -, done, -⟩ := field (pos + 8 + 2 * n) 4 done (by omega) four
  obtain ⟨b4, k4, s4, read4, dec4, -, done, -⟩ := field (pos + 12 + 2 * n) 4 done (by omega) four
  obtain ⟨b5, k5, s5, read5, dec5, -, done, -⟩ := field (pos + 16 + 2 * n) 4 done (by omega) four
  obtain ⟨b6, k6, s6, read6, dec6, -, done, -⟩ := field (pos + 20 + 2 * n) 4 done (by omega) four
  obtain ⟨fkey, k7, s7, read7, dec7, keyLength, ⟨ready, others⟩, hdout⟩ :=
    field (pos + 24 + 2 * n) 16 done (by omega) (by decide)
  have nameSize : 2 * (u32 b0).toNat = 2 * n := by rw [hn, nameChars, dec0]
  refine ⟨⟨name, u32 b2, u32 b3, u32 b4, u32 b5, u32 b6, fkey⟩, s7, k7, b0, b2, b3, b4, b5, b6, ?entry, ?fields,
    rfl, rfl, rfl, rfl, rfl, nameLength, keyLength, ready, hdout, others⟩
  case entry =>
    rw [readEntry, Session.andThen_of_ok read0]
    simp only [nameSize]
    rw [if_neg (Nat.not_lt.mpr hcap), Session.andThen_of_ok read1, Session.andThen_of_ok read2,
      Session.andThen_of_ok read3, Session.andThen_of_ok read4, Session.andThen_of_ok read5,
      Session.andThen_of_ok read6, Session.andThen_of_ok read7]
    rfl
  case fields =>
    simp only [entryFields, decryptFields, dec0, dec1, dec2, dec3, dec4, dec5, dec6, dec7]

end Sys2Proof.Machine

/-! ## The archive container family: the walk over the entries and what the sequence answers -/

namespace Sys2Proof.Machine

open Sys2Proof

/-- Settles O54: the walk of n + 1 entries is one entry, then the walk of the n that follow. -/
theorem entriesAreReadInOrder : Obligations.EntriesAreReadInOrder := by
  intro p c file pos s
  refine ⟨rfl, fun n e t failed => ?_, fun n pos' e x s' t read failed => ?_, fun n pos' xs x s' t read walk => ?_⟩
  · exact Session.andThen_of_error failed
  · exact (Session.andThen_of_ok read).trans (Session.andThen_of_error failed)
  · exact (Session.andThen_of_ok read).trans (Session.andThen_of_ok walk)

/-- The Boolean test of the header is the integrity relation of R164. -/
theorem ite_intact {α : Type} (h : Header) (yes no : α) :
    (if h.intact then yes else no) = if h.w1 = h.w2 + h.ver.setWidth 32 then yes else no := by
  simp only [Header.intact, decide_eq_true_eq]

/-- Settles O52: past the three accesses that locate the header, and past the header, only the two refusals are left. -/
theorem archiveOutcomeFollowsTheHeader : Obligations.ArchiveOutcomeFollowsTheHeader := by
  refine ⟨fun p secret cH cC filename file s s1 s2 s3 out offset1 seed2 issued read0 read1 => ?_,
    fun p cC combined file ckey out offset1 seed2 count s s1 s2 keyed initialised => ?_⟩
  · rw [readArchive, Session.andThen_of_ok issued, Session.andThen_of_ok read0, Session.andThen_of_ok read1]
    refine ⟨fun short => ?_, fun h s4 inFile header => ?_⟩
    · rw [if_pos short, Session.fail]
    · rw [if_neg (Nat.not_lt.mpr inFile), Session.andThen_of_ok header, ite_intact]
      split <;> rfl
  · rw [readTable, Session.andThen_of_ok keyed, Session.andThen_of_ok initialised]

/-! ### truncation -/

/-- A field past the end of the file is refused with no command issued (R169). -/
theorem readField_of_short (p : Config.Params) (c : CtxField) {file : List Byte} {pos n : Nat} (s : State)
    (short : file.length < pos + n) : readField p c file pos n s = (.error (.code .truncation), s) := by
  rcases takeFile_cases file pos n with ⟨-, e⟩ | ⟨inFile, -⟩
  · rw [readField, e]
    rfl
  · exact absurd short (Nat.not_lt.mpr inFile)

/-- A host program that ends in TruncationError from every state from which the host can read a field on context c. -/
def Session.Truncates {α : Type} (c : CtxField) (m : Session α) : Prop :=
  ∀ (s : State) (k : Ctx), s.ReadyFor c k → ∃ t, m s = (.error (.code .truncation), t)

theorem Session.Truncates.of_short {α : Type} (p : Config.Params) (c : CtxField) {file : List Byte} {pos n : Nat}
    (f : List Byte → Session α) (short : file.length < pos + n) : ((readField p c file pos n).andThen f).Truncates c :=
  fun s _ _ => ⟨s, Session.andThen_of_error (readField_of_short p c s short)⟩

/-- A field that fits the input queue either runs past the end of the file itself or leaves the truncation to what follows. -/
theorem Session.Truncates.after_field {α : Type} (p : Config.Params) {c : CtxField} (file : List Byte) (pos : Nat) {n : Nat}
    {f : List Byte → Session α} (hcap : n ≤ Config.bufcap) (later : ∀ out, (f out).Truncates c) :
    ((readField p c file pos n).andThen f).Truncates c := by
  intro s k ready
  by_cases short : file.length < pos + n
  · exact of_short p c f short s k ready
  · obtain ⟨out, k', t, read, -, -, ⟨ready', -⟩, -⟩ :=
      readField_of_fieldsRead p file pos n ⟨ready, fun _ _ => rfl⟩ (Nat.le_of_not_lt short) hcap
    rw [Session.andThen_of_ok read]
    exact later out t k' ready'

theorem readEntry_of_short_count (p : Config.Params) (c : CtxField) {file : List Byte} {pos : Nat} (s : State)
    (short : file.length < pos + 4) : readEntry p c file pos s = (.error (.code .truncation), s) :=
  Session.andThen_of_error (readField_of_short p c s short)

/-- The first field of an entry gives the number of characters of its name (R167). -/
theorem readField_nameChars (p : Config.Params) {c : CtxField} {file : List Byte} {pos : Nat} {s : State} {k : Ctx}
    (ready : s.ReadyFor c k) (inFile : pos + 4 ≤ file.length) :
    ∃ nw k' t, readField p c file pos 4 s = (.ok nw, t) ∧ (u32 nw).toNat = nameChars p.rom file pos k ∧
      t.ReadyFor c k' := by
  obtain ⟨nw, k', t, read, decrypted, -, ⟨ready', -⟩, -⟩ :=
    readField_of_fieldsRead p file pos 4 ⟨ready, fun _ _ => rfl⟩ inFile (by decide)
  exact ⟨nw, k', t, read, by rw [nameChars, decrypted], ready'⟩

/-- A name longer than the input queue holds is refused before the file is looked at for it (R167, D48; log 15). -/
theorem readEntry_of_long_name (p : Config.Params) {c : CtxField} {file : List Byte} {pos : Nat} {s : State} {k : Ctx}
    (ready : s.ReadyFor c k) (inFile : pos + 4 ≤ file.length) (long : Config.bufcap < 2 * nameChars p.rom file pos k) :
    ∃ t, readEntry p c file pos s = (.error (.code .bounds), t) := by
  obtain ⟨nw, k', t, read, count, -⟩ := readField_nameChars p ready inFile
  refine ⟨t, ?_⟩
  rw [readEntry, Session.andThen_of_ok read]
  simp only [count]
  rw [if_pos long, Session.fail]

/-- The seven fields after the count: the first of them that runs past the end of the file ends the entry (R169). -/
theorem readEntry_of_short (p : Config.Params) {c : CtxField} {file : List Byte} {pos : Nat} {s : State} {k : Ctx}
    (ready : s.ReadyFor c k) (inFile : pos + 4 ≤ file.length) (fits : 2 * nameChars p.rom file pos k ≤ Config.bufcap)
    (short : file.length < pos + 40 + 2 * nameChars p.rom file pos k) :
    ∃ t, readEntry p c file pos s = (.error (.code .truncation), t) := by
  have four : 4 ≤ Config.bufcap := by decide
  obtain ⟨nw, k', t, read, count, ready'⟩ := readField_nameChars p ready inFile
  rw [readEntry, Session.andThen_of_ok read]
  simp only [count]
  rw [if_neg (Nat.not_lt.mpr fits)]
  have field := @Session.Truncates.after_field (Entry × Nat) p c file
  refine field _ fits (fun _ => field _ four fun _ => field _ four fun _ => field _ four fun _ =>
    field _ four fun _ => field _ four fun _ => .of_short p c _ ?lastField) t k' ready'
  case lastField => omega

/-- Everything reading an entry can do from a state ready for it: one of the two errors, or a whole entry that lies in the
file, ready for the next. -/
theorem readEntry_cases (p : Config.Params) {c : CtxField} (file : List Byte) (pos : Nat) {s : State} {k : Ctx}
    (ready : s.ReadyFor c k) :
    ∃ t, readEntry p c file pos s = (.error (.code .truncation), t) ∨
      readEntry p c file pos s = (.error (.code .bounds), t) ∨
      ∃ e pos' k', readEntry p c file pos s = (.ok (e, pos'), t) ∧ pos + 40 ≤ pos' ∧ pos' ≤ file.length ∧
        t.ReadyFor c k' := by
  by_cases inFile : pos + 4 ≤ file.length
  case neg => exact ⟨s, .inl (readEntry_of_short_count p c s (Nat.lt_of_not_le inFile))⟩
  by_cases fits : 2 * nameChars p.rom file pos k ≤ Config.bufcap
  case neg =>
    obtain ⟨t, e⟩ := readEntry_of_long_name p ready inFile (Nat.lt_of_not_le fits)
    exact ⟨t, .inr (.inl e)⟩
  by_cases whole : pos + 40 + 2 * nameChars p.rom file pos k ≤ file.length
  case neg =>
    obtain ⟨t, e⟩ := readEntry_of_short p ready inFile fits (Nat.lt_of_not_le whole)
    exact ⟨t, .inl e⟩
  obtain ⟨e, t, k', _, _, _, _, _, _, read, -, -, -, -, -, -, -, -, ready', -⟩ :=
    entryReadsItsFieldsInOrder p c file pos _ s k ready rfl fits whole
  exact ⟨t, .inr (.inr ⟨e, _, k', read, Nat.le_add_right _ _, whole, ready'⟩)⟩

/-- A table with no room for the declared entries, 40 bytes at least for each, ends the walk with an error (R168, R169). -/
theorem readEntries_of_short (p : Config.Params) {c : CtxField} {file : List Byte} {count pos : Nat} {s : State} {k : Ctx}
    (ready : s.ReadyFor c k) (nonzero : count ≠ 0) (short : file.length < pos + 40 * count) :
    ∃ t, readEntries p c file count pos s = (.error (.code .truncation), t) ∨
      readEntries p c file count pos s = (.error (.code .bounds), t) := by
  induction count generalizing pos s k with
  | zero => exact absurd rfl nonzero
  | succ n ih =>
    obtain ⟨-, first, later, -⟩ := entriesAreReadInOrder p c file pos s
    obtain ⟨t, e | e | ⟨x, pos', k', read, size, inFile, ready'⟩⟩ := readEntry_cases p file pos ready
    · exact ⟨t, .inl (first n _ t e)⟩
    · exact ⟨t, .inr (first n _ t e)⟩
    · obtain ⟨t', e⟩ := ih (pos := pos') ready' (by omega) (by omega)
      exact ⟨t', e.imp (later n pos' _ x t t' read) (later n pos' _ x t t' read)⟩

/-- An ACE.INIT that answers leaves its context ready for the first field (R122, R166). -/
theorem readyFor_of_issue_aceInit {p : Config.Params} {c : CtxField} {key out : List Byte} {s t : State}
    (issued : issue p (.aceInit c) none key s = (.ok out, t)) : ∃ k, t.ReadyFor c k := by
  obtain ⟨-, -, answered, -⟩ := noCommandAnswersOnAShortenedOperand
  obtain ⟨-, clear, s1, ran, hok, -, left⟩ := answered p (.aceInit c) none key out s t nofun issued
  rw [runWith] at ran
  rw [left] at clear ⊢
  rcases cmdAceInit_cases p c _ with ⟨-, e⟩ | ⟨-, -, e⟩ | ⟨hc, -, e⟩ <;> rw [e] at ran
  · cases hok.symm.trans (congrArg State.err ran)
  · cases hok.symm.trans (congrArg State.err ran)
  · subst ran
    exact ⟨_, rfl, clear, hc, State.ctxAt_setCtx_self c _ _ hc⟩

/-- A table that yields entries has room for all of them (R168, R169). -/
theorem readTable_eq_ok_room {p : Config.Params} {c : CtxField} {combined file : List Byte} {offset1 seed2 : Word}
    {count : Nat} {s t : State} {es : List Entry} (nonzero : count ≠ 0)
    (yields : readTable p c combined file offset1 seed2 count s = (.ok es, t)) :
    offset1.toNat + seed2.toNat + 40 * count ≤ file.length := by
  obtain ⟨ckey, s1, -, yields⟩ := Session.andThen_eq_ok yields
  obtain ⟨out, s2, initialised, walk⟩ := Session.andThen_eq_ok yields
  obtain ⟨k, ready⟩ := readyFor_of_issue_aceInit initialised
  by_contra short
  obtain ⟨t', e | e⟩ := readEntries_of_short p ready nonzero (Nat.lt_of_not_le short) <;> cases walk.symm.trans e

/-- Settles O50: the first field that runs past the end of the file ends the entry, and its error the whole walk. -/
theorem truncatedFieldStopsTheWalk : Obligations.TruncatedFieldStopsTheWalk := by
  refine ⟨?field, ?count, ?entry, ?table, ?archive⟩
  case field => exact fun p c file pos n s short => readField_of_short p c s short
  case count => exact fun p c file pos s short => readEntry_of_short_count p c s short
  case entry =>
    rintro p c file pos n s k ready inFile rfl
    exact ⟨readEntry_of_short p ready inFile, readEntry_of_long_name p ready inFile⟩
  case table => exact fun p c file count pos s k ready nonzero short => readEntries_of_short p ready nonzero short
  case archive =>
    intro p secret cH cC filename file s t es hdin yields nonempty
    obtain ⟨_, offset1, seed2, h, _, _, _, s4, -, -, -, -, -, -, declared, table, sums⟩ :=
      archiveNeedsAnIntactHeader p secret cH cC filename file s t es yields
    obtain ⟨offset1Sum, seed2Sum⟩ := sums hdin
    rw [← offset1Sum, ← seed2Sum, declared]
    exact readTable_eq_ok_room (declared ▸ mt List.length_eq_zero_iff.mp nonempty) table

end Sys2Proof.Machine

/-! ## The network key family: the derived key, the key schedule and NKD.LOAD -/

namespace Sys2Proof.Machine

open Sys2Proof

/-! ### NKD.DERIVE and NKD.LOAD -/

/-- The whole effect of ending a command in BoundsError (R246). -/
theorem raiseError_bounds (s : State) :
    s.raiseError .bounds = { s with err := .bounds, sBnd := true, dout := [], din := [] } := rfl

/-- The whole effect of NKD.DERIVE on a slice that lies in the blob (R184, R185, R92). -/
theorem cmdNkdDerive_of_fits (p : Config.Params) (s : State) {offset size : Nat} {key : Vector Byte 268}
    (hoffset : offset = (p.nkfields s.arg0).1.val) (hsize : size = (p.nkfields s.arg0).2.val) (hne : size ≠ 0)
    (hfits : offset + size ≤ s.din.length)
    (hkey : key = prependHeader p.nkhdr (ksa ((s.din.drop offset).take size))) :
    cmdNkdDerive p s = { s with
      nkey := some key, dout := key.toList, err := .ok, res0 := BitVec.ofNat 32 offset, res1 := BitVec.ofNat 32 size
      din := [] } := by
  rcases cmdNkdDerive_cases p s offset size hoffset hsize with ⟨hzero, -⟩ | ⟨-, hpast, -⟩ | ⟨-, -, key', hkey', e⟩
  · exact absurd hzero hne
  · exact absurd hfits (Nat.not_le.mpr hpast)
  · rw [e, hkey'.trans hkey.symm]
    rfl

/-- Settles O28: each outcome of the command under the conditions the statement tests in turn. -/
theorem deriveStoresAndReturnsTheKey : Obligations.DeriveStoresAndReturnsTheKey := by
  intro s offset size hoffset hsize
  rw [exec_eq_runWith, runWith, ← raiseError_configuration, ← raiseError_bounds]
  rcases cmdNkdDerive_cases Config.hw s offset size hoffset hsize with
    ⟨hzero, e⟩ | ⟨hne, hpast, e⟩ | ⟨hne, hfits, -⟩
  · rw [if_pos hzero, e]
  · rw [if_neg hne, if_pos hpast, e]
  · rw [if_neg hne, if_neg (Nat.not_lt.mpr hfits), cmdNkdDerive_of_fits Config.hw s hoffset hsize hne hfits rfl]

/-- Settles O29: the case of a slice in the blob, at the parameters' own fields. -/
theorem deriveWithAnyParameters : Obligations.DeriveWithAnyParameters := by
  refine ⟨exec_eq_runWith .nkdDerive, fun p s offset size hfields hne hfits => ⟨_, rfl, ?_⟩⟩
  have hoffset : offset.val = (p.nkfields s.arg0).1.val := by rw [hfields]
  have hsize : size.val = (p.nkfields s.arg0).2.val := by rw [hfields]
  exact cmdNkdDerive_of_fits p s hoffset hsize (Fin.val_ne_zero_iff.mpr hne) hfits rfl

/-- Settles O33: 268 bytes are the key as they stand; another length ends the command before it writes. -/
theorem loadStoresTheKeyAsGiven : Obligations.LoadStoresTheKeyAsGiven := by
  intro s
  rw [exec_eq_runWith, runWith, ← raiseError_configuration]
  rcases cmdNkdLoad_cases s with ⟨hother, e⟩ | ⟨hlen, key, hkey, e⟩
  · exact ⟨fun hlen => absurd hlen hother, fun _ => congrArg _ e⟩
  · exact ⟨fun _ => ⟨key, hkey, congrArg _ e⟩, fun hother => absurd hlen hother⟩

/-! ### the layout of the derived key -/

/-- Each byte of the derived key (R184): byte 11 is the fix-up, those before it the header's, those after it the table's. -/
theorem getElem_prependHeader (hdr : Vector Byte 12) (table : Vector Byte 256) (i : Nat) (hi : i < 268) :
    (prependHeader hdr table)[i]
      = if i = 11 then table[0] else if hlt : i < 12 then hdr[i] else table[i - 12] := by
  have fixup : (hdr ++ table)[12] = table[0] := Vector.getElem_append_right (by decide) (by decide)
  rw [prependHeader, Vector.getElem_set, fixup, Vector.getElem_append]
  simp only [eq_comm]

/-- Settles O30: the three ranges of `getElem_prependHeader`. -/
theorem derivedKeyLayout : Obligations.DerivedKeyLayout := by
  intro hdr table
  refine ⟨fun i hi => ?_, getElem_prependHeader hdr table 11 (by decide), fun i hi => ?_⟩
  · rw [getElem_prependHeader, if_neg hi.ne, dif_pos (Nat.lt_succ_of_lt hi)]
  · rw [getElem_prependHeader, if_neg (by omega), dif_neg (by omega)]
    simp only [Nat.add_sub_cancel_left]

/-! ### the key schedule -/

/-- The table and j of R183 before round n. -/
def ksaStates (k : List Byte) (n : Nat) : Vector Byte 256 × Byte :=
  (List.range n).foldl (ksaRound k) (identityTable, 0#8)

theorem ksaStates_zero (k : List Byte) : ksaStates k 0 = (identityTable, 0#8) := rfl

theorem ksaStates_succ (k : List Byte) (n : Nat) : ksaStates k (n + 1) = ksaRound k (ksaStates k n) n := by
  rw [ksaStates, List.range_succ, List.foldl_concat, ksaStates]

theorem ksa_eq_ksaStates (k : List Byte) : ksa k = (ksaStates k 256).1 := rfl

/-- Settles O32: the states before each round, by what a round and a swap do. -/
theorem ksaFollowsTheRounds : Obligations.KsaFollowsTheRounds := by
  intro k _
  refine ⟨fun n => (ksaStates k n).1, fun n => (ksaStates k n).2, identityTable_get, rfl, (ksa_eq_ksaStates k).symm, ?_⟩
  intro i kb hkb
  simp only [ksaStates_succ, ksaRound_eq k _ i kb hkb]
  refine ⟨trivial, ?atI, ?atJ, fun b hi hj => ?others⟩ <;> rw [swapEntries_get]
  case atI =>
    split
    case isTrue same => rw [← same]
    case isFalse => exact if_pos rfl
  case atJ => exact if_pos rfl
  case others => rw [if_neg hj, if_neg hi]

/-- A table in which every byte stands at exactly one place. -/
def IsPermutation (t : Vector Byte 256) : Prop := Function.Bijective fun b : Byte => t.get b.toFin

theorem identityTable_isPermutation : IsPermutation identityTable := by
  rw [IsPermutation, funext identityTable_get]
  exact Function.bijective_id

/-- A swap of two entries reads the table through the transposition of their places. -/
theorem swapEntries_get_eq_swap (t : Vector Byte 256) (i j b : Byte) :
    (swapEntries t i j).get b.toFin = t.get (Equiv.swap j i b).toFin := by
  rw [swapEntries_get, Equiv.swap_apply_def]
  split_ifs <;> rfl

theorem IsPermutation.swap {t : Vector Byte 256} (h : IsPermutation t) (i j : Byte) :
    IsPermutation (swapEntries t i j) := by
  rw [IsPermutation, funext (swapEntries_get_eq_swap t i j)]
  exact Function.Bijective.comp (g := fun b : Byte => t.get b.toFin) h (Equiv.swap j i).bijective

theorem ksaStates_isPermutation (k : List Byte) (n : Nat) : IsPermutation (ksaStates k n).1 := by
  induction n with
  | zero => exact identityTable_isPermutation
  | succ n ih =>
    rw [ksaStates_succ]
    exact ih.swap _ _

theorem IsPermutation.toList_nodup {t : Vector Byte 256} (h : IsPermutation t) : t.toList.Nodup := by
  rw [List.nodup_iff_injective_get]
  intro x y same
  have places : BitVec.ofFin (x.cast t.length_toList) = BitVec.ofFin (y.cast t.length_toList) := h.injective same
  exact Fin.cast_injective _ (BitVec.ofFin.inj places)

theorem IsPermutation.mem_toList {t : Vector Byte 256} (h : IsPermutation t) (b : Byte) : b ∈ t.toList := by
  obtain ⟨place, rfl⟩ := h.surjective b
  rw [Vector.mem_toList_iff]
  exact Vector.getElem_mem _

/-- Settles O31: the identity table is a permutation and every round keeps it one. -/
theorem ksaYieldsAPermutation : Obligations.KsaYieldsAPermutation := by
  intro k
  have h : IsPermutation (ksa k) := ksaStates_isPermutation k 256
  exact ⟨h.toList_nodup, h.mem_toList⟩

end Sys2Proof.Machine

/-! ## The network packet family: the frame, the packet cipher's closed forms, and decryption as its inverse -/

namespace Sys2Proof.Machine

open Sys2Proof

/-! ### the length field and the frame -/

theorem be16_lt (hi lo : Byte) : be16 hi lo < 65536 := by
  unfold be16; omega

theorem be16_split {n : Nat} (h : n < 65536) : be16 (BitVec.ofNat 8 (n / 256)) (BitVec.ofNat 8 (n % 256)) = n := by
  simp only [be16, BitVec.toNat_ofNat]; omega

theorem ofNat_be16_div (hi lo : Byte) : BitVec.ofNat 8 (be16 hi lo / 256) = hi := by
  apply BitVec.eq_of_toNat_eq
  simp only [be16, BitVec.toNat_ofNat]; omega

theorem ofNat_be16_mod (hi lo : Byte) : BitVec.ofNat 8 (be16 hi lo % 256) = lo := by
  apply BitVec.eq_of_toNat_eq
  simp only [be16, BitVec.toNat_ofNat]; omega

/-- The frame of R201: the length field counts the payload and one byte more. -/
theorem parseFrame_of_wellFormed {hi lo seq reserved : Byte} {cipher trailing : List Byte}
    (hl : be16 hi lo = cipher.length + 1) :
    parseFrame ([0xAA#8, hi, lo, seq, reserved] ++ cipher ++ trailing) = .ok (cipher.length + 1, seq, cipher) := by
  simp [parseFrame, byteAt, hl, Nat.add_comm 5]

/-- R207: the parser accepts well-formed frames only. -/
theorem wellFormed_of_parseFrame {fr cipher : List Byte} {l : Nat} {seq : Byte}
    (h : parseFrame fr = .ok (l, seq, cipher)) :
    ∃ hi lo reserved trailing, fr = [0xAA#8, hi, lo, seq, reserved] ++ cipher ++ trailing ∧
      be16 hi lo = l ∧ l = cipher.length + 1 := by
  rcases parseFrame_cases fr with ⟨-, e⟩ | ⟨-, -, e⟩ | ⟨marker, header, nonzero, fits, e⟩ <;> rw [e] at h <;> cases h
  match fr with
  | m :: hi :: lo :: seq :: reserved :: rest =>
    obtain rfl : m = 0xAA#8 := Option.some.inj marker
    refine ⟨hi, lo, reserved, rest.drop (be16 hi lo - 1), by simp [byteAt], rfl, ?_⟩
    simp [byteAt] at nonzero fits ⊢
    omega
  | [] | [_] | [_, _] | [_, _, _] | [_, _, _, _] => simp at header

/-! ### the two commands on a stored key -/

theorem scratchSize_eq (key : Vector Byte 268) : scratchSize key = 16 * (((key[0]).toNat + 30) / 16) := by
  rw [scratchSize, Nat.shiftRight_eq_div_pow]

/-- The whole effect of NPC.ENC on a payload that fits a frame (R202, R205). -/
theorem cmdNpcEnc_of_fits {s : State} {key : Vector Byte 268} (stored : s.nkey = some key) (hn : key[0] ≠ 0#8)
    (fits : s.din.length ≤ 65534) :
    cmdNpcEnc s = s.succeed
      { out := frame (s.din.length + 1) s.seqNumber (encryptBytes key s.din)
        res0 := some (BitVec.ofNat 32 (s.din.length + 1))
        res1 := some (s.seqNumber.setWidth 32) } := by
  rcases cmdNpcEnc_cases s with ⟨absent, -⟩ | ⟨key', stored', e⟩
  · cases stored.symm.trans absent
  obtain rfl : key' = key := Option.some.inj (stored'.symm.trans stored)
  rcases encryptPacket_cases key' s.seqNumber s.din with ⟨zero, -⟩ | ⟨-, long, -⟩ | ⟨-, -, q⟩
  · exact absurd zero hn
  · exact absurd fits (Nat.not_le.mpr long)
  · rw [e, q, State.finish_ok]

/-- The whole effect of NPC.DEC on a well-formed frame (R206, R207). -/
theorem cmdNpcDec_of_wellFormed {s : State} {key : Vector Byte 268} {hi lo seq reserved : Byte}
    {cipher trailing : List Byte} (stored : s.nkey = some key) (hn : key[0] ≠ 0#8)
    (inRange : (key[4]).toNat < scratchSize key) (hdin : s.din = [0xAA#8, hi, lo, seq, reserved] ++ cipher ++ trailing)
    (hl : be16 hi lo = cipher.length + 1) :
    cmdNpcDec s = s.succeed
      { out := decryptBytes key cipher
        res0 := some (BitVec.ofNat 32 (cipher.length + 1))
        res1 := some (seq.setWidth 32) } := by
  have parsed : parseFrame s.din = .ok (cipher.length + 1, seq, cipher) := hdin ▸ parseFrame_of_wellFormed hl
  rcases cmdNpcDec_cases s with ⟨absent, -⟩ | ⟨key', stored', e⟩
  · cases stored.symm.trans absent
  obtain rfl : key' = key := Option.some.inj (stored'.symm.trans stored)
  rcases decryptPacket_cases key' s.din with ⟨_, hx, -⟩ | ⟨_, -, zero, -⟩ | ⟨_, -, -, beyond, -⟩ | ⟨x, hx, -, -, q⟩
  · cases parsed.symm.trans hx
  · exact absurd zero hn
  · exact absurd inRange (Nat.not_lt.mpr beyond)
  · cases parsed.symm.trans hx
    rw [e, q, State.finish_ok]

/-- What a successful NPC.DEC has found and left: a stored key and a well-formed frame (R206, R207). -/
theorem cmdNpcDec_succeeded {s : State} (ok : (cmdNpcDec s).err = .ok) :
    ∃ key hi lo seq reserved cipher trailing, s.nkey = some key ∧ key[0] ≠ 0#8 ∧
      s.din = [0xAA#8, hi, lo, seq, reserved] ++ cipher ++ trailing ∧ be16 hi lo = cipher.length + 1 ∧
      cmdNpcDec s = s.succeed
        { out := decryptBytes key cipher
          res0 := some (BitVec.ofNat 32 (cipher.length + 1))
          res1 := some (seq.setWidth 32) } := by
  rcases cmdNpcDec_cases s with ⟨-, e⟩ | ⟨key, stored, e⟩ <;> rw [e] at ok
  · cases ok
  rcases decryptPacket_cases key s.din with ⟨c, hc, q⟩ | ⟨_, -, -, q⟩ | ⟨_, -, -, -, q⟩ |
    ⟨⟨l, seq, cipher⟩, hx, hn, inRange, -⟩
  · rw [q] at ok
    obtain rfl : c = .ok := ok
    rcases parseFrame_cases s.din with ⟨-, p⟩ | ⟨-, -, p⟩ | ⟨-, -, -, -, p⟩ <;> cases hc.symm.trans p
  · rw [q] at ok; cases ok
  · rw [q] at ok; cases ok
  · obtain ⟨hi, lo, reserved, trailing, hdin, rfl, hl⟩ := wellFormed_of_parseFrame hx
    exact ⟨key, hi, lo, seq, reserved, cipher, trailing, stored, hn, hdin, hl,
      cmdNpcDec_of_wellFormed stored hn inRange hdin hl⟩

/-- R84, D40: the sequence number is ARG0 modulo 256. -/
theorem seqNumber_setWidth (s : State) : s.seqNumber.setWidth 32 = BitVec.ofNat 32 (s.arg0.toNat % 256) := by
  apply BitVec.eq_of_toNat_eq
  simp [State.seqNumber]

theorem seqNumber_eq_setWidth (s : State) : s.seqNumber = s.arg0.setWidth 8 := by
  apply BitVec.eq_of_toNat_eq
  simp [State.seqNumber]

/-- Settles O34: the frame NPC.ENC answers, byte by byte of its header. -/
theorem encFramesTheCiphertext : Obligations.EncFramesTheCiphertext := by
  intro s key stored hn fits
  have lowByte : BitVec.ofNat 8 ((s.din.length + 1) % 256) = BitVec.ofNat 8 (s.din.length + 1) := by
    apply BitVec.eq_of_toNat_eq; simp
  refine ⟨encryptBytes_length key s.din, ?_⟩
  rw [exec_eq_runWith, runWith, cmdNpcEnc_of_fits stored hn fits, frame, lowByte, seqNumber_setWidth,
    seqNumber_eq_setWidth]
  rfl

/-- Settles O36: the parser accepts the frame, and the key passes both checks. -/
theorem decAcceptsAWellFormedFrame : Obligations.DecAcceptsAWellFormedFrame := by
  intro s key hi lo seq reserved cipher trailing stored hn inRange hdin hl
  refine ⟨decryptBytes_length key cipher, ?_⟩
  rw [exec_eq_runWith, runWith, cmdNpcDec_of_wellFormed stored hn (scratchSize_eq key ▸ inRange) hdin hl]
  rfl

/-- Settles O40: the decrypted payload has the frame's length, and the frame's length field and sequence number return. -/
theorem reframingReproducesTheHeader : Obligations.ReframingReproducesTheHeader := by
  intro s t ran ok
  rw [exec_eq_runWith, runWith] at ran
  cases ran
  obtain ⟨key, hi, lo, seq, reserved, cipher, trailing, stored, hn, hdin, hl, e⟩ := cmdNpcDec_succeeded ok
  rw [e, exec_eq_runWith, runWith]
  refine ⟨_, rfl, ?_⟩
  have fits : (decryptBytes key cipher).length ≤ 65534 := by
    have := be16_lt hi lo
    rw [decryptBytes_length]; omega
  have sameSeq : (BitVec.setWidth 32 seq).extractLsb' 0 8 = seq := by
    apply BitVec.eq_of_toNat_eq; simp; omega
  rw [cmdNpcEnc_of_fits (by simpa using stored) hn (by simpa using fits)]
  refine ⟨rfl, ?_, rfl⟩
  simp [frame, State.seqNumber, sameSeq, hdin, ← hl, ofNat_be16_div, ofNat_be16_mod]

/-! ### ciphertext bytes -/

/-- The cursor of inner step t of byte i (R203, R204): 1, then 2 more for each of the n steps of every byte before it. -/
theorem cursor_eq (n i t : Nat) :
    1#8 + BitVec.ofNat 8 (2 * n * i) + BitVec.ofNat 8 (2 * t) = BitVec.ofNat 8 (1 + 2 * (n * i + t)) := by
  rw [← BitVec.ofNat_add, ← BitVec.ofNat_add, Nat.mul_add, Nat.mul_assoc, Nat.add_assoc]

/-- Settles O35: the inner steps of byte i, each at its own table position. -/
theorem ciphertextByteClosedForm : Obligations.CiphertextByteClosedForm := by
  intro key payload i hi
  rw [encryptBytes, encryptFrom_getElem? key payload _ _ i hi, encryptSteps_fst]
  simp only [encryptStep, cursor_eq]

/-! ### plaintext bytes -/

/-- R209: one inner step of R204 undone, with the same two table bytes. -/
def undoStep (key : Vector Byte 268) (cur v : Byte) : Byte :=
  (v - tableByte key (cur + 1#8)) ^^^ tableByte key cur

theorem xor_xor_cancel (a v : Byte) : (a ^^^ v) ^^^ a = v := by
  rw [BitVec.xor_comm, ← BitVec.xor_assoc, BitVec.xor_self, BitVec.zero_xor]

theorem undoStep_encryptStep (key : Vector Byte 268) (cur v : Byte) :
    undoStep key cur (encryptStep key cur v) = v := by
  rw [undoStep, encryptStep, BitVec.add_comm, BitVec.add_sub_cancel, xor_xor_cancel]

/-- The number of steps R209 undoes for one byte: positions NKEY[4] down to 0 that the refill reaches. -/
def undoCount (key : Vector Byte 268) : Nat := min (key[4]).toNat ((key[0]).toNat - 1) + 1

/-- The steps R209 undoes for one byte whose table bytes begin at a cursor, the last position first. -/
def undoSteps (key : Vector Byte 268) (cur c : Byte) : Byte :=
  (List.range (undoCount key)).foldr (fun t v => undoStep key (cur + BitVec.ofNat 8 (2 * t)) v) c

/-- Steps that change nothing can be left out at the end of the range. -/
theorem foldr_range_of_idle {α : Type} {f : Nat → α → α} {m n : Nat} (hmn : m ≤ n)
    (idle : ∀ t, m ≤ t → t < n → ∀ v, f t v = v) (v : α) : (List.range n).foldr f v = (List.range m).foldr f v := by
  induction n, hmn using Nat.le_induction with
  | base => rfl
  | succ n hmn ih =>
    rw [List.range_succ, List.foldr_append, List.foldr_cons, List.foldr_nil, idle n hmn n.lt_succ_self]
    exact ih fun t hm ht => idle t hm (ht.trans n.lt_succ_self)

theorem foldr_foldl_cancel {α β : Type} {f g : α → β → β} (cancel : ∀ t v, g t (f t v) = v) (l : List α) :
    ∀ v, l.foldr g (l.foldl (fun v t => f t v) v) = v := by
  induction l with
  | nil => intro v; rfl
  | cons t l ih => intro v; rw [List.foldl_cons, List.foldr_cons, ih, cancel]

/-- The scratch buffers between two bytes (R208): their size, and zeros in the entries that no refill reaches. -/
structure Scratch.Valid (key : Vector Byte 268) (b : Scratch) : Prop where
  sa_length : b.sa.length = scratchSize key
  sb_length : b.sb.length = scratchSize key
  sa_beyond : ∀ e, (key[0]).toNat ≤ e → byteAt b.sa e = 0#8
  sb_beyond : ∀ e, (key[0]).toNat ≤ e → byteAt b.sb e = 0#8

theorem scratchStart_valid (key : Vector Byte 268) : (scratchStart key).Valid key where
  sa_length := List.length_replicate
  sb_length := List.length_replicate
  sa_beyond e _ := (byteAt_scratchStart key e).1
  sb_beyond e _ := (byteAt_scratchStart key e).2

section Refill

variable {key : Vector Byte 268} {b : Scratch}

theorem Scratch.Valid.sa_room (h : b.Valid key) : 0 + (key[0]).toNat ≤ b.sa.length := by
  have := le_scratchSize key
  rw [h.sa_length]; omega

theorem Scratch.Valid.sb_room (h : b.Valid key) : 0 + (key[0]).toNat ≤ b.sb.length := by
  have := le_scratchSize key
  rw [h.sb_length]; omega

theorem Scratch.Valid.refill (h : b.Valid key) : (refill key (key[0]).toNat 0 b).Valid key := by
  have beyond e (he : (key[0]).toNat ≤ e) :=
    byteAt_refill_beyond key (key[0]).toNat 0 e b h.sa_room h.sb_room (by omega)
  exact {
    sa_length := (refill_sa_length key _ 0 b).trans h.sa_length
    sb_length := (refill_sb_length key _ 0 b).trans h.sb_length
    sa_beyond := fun e he => (beyond e he).1.trans (h.sa_beyond e he)
    sb_beyond := fun e he => (beyond e he).2.trans (h.sb_beyond e he) }

/-- A position the refill reaches undoes a step with the table bytes at its place (R208, R209). -/
theorem Scratch.Valid.step_of_lt (h : b.Valid key) {t : Nat} (ht : t < (key[0]).toNat) (v : Byte) :
    (v - byteAt (Machine.refill key (key[0]).toNat 0 b).sb t) ^^^ byteAt (Machine.refill key (key[0]).toNat 0 b).sa t
      = undoStep key (b.idx + BitVec.ofNat 8 (2 * t)) v := by
  rw [byteAt_refill_sa key _ 0 b t h.sa_room, byteAt_refill_sb key _ 0 b t h.sb_room, if_pos (by omega),
    if_pos (by omega), undoStep, Nat.sub_zero]

/-- A position past the refill changes nothing (R208, R209). -/
theorem Scratch.Valid.step_of_le (h : b.Valid key) {t : Nat} (ht : (key[0]).toNat ≤ t) (v : Byte) :
    (v - byteAt b.sb t) ^^^ byteAt b.sa t = v := by
  rw [h.sa_beyond t ht, h.sb_beyond t ht, BitVec.sub_zero, BitVec.xor_zero]

/-- One byte of R209 after its refill, for every key: the steps at NKEY[0] and past it fall away. -/
theorem Scratch.Valid.decryptByte_eq (h : b.Valid key) (hn : key[0] ≠ 0#8) (acc c : Byte) :
    decryptByte key (Machine.refill key (key[0]).toNat 0 b) acc c = undoSteps key b.idx c ^^^ acc := by
  have pos : (key[0]).toNat ≠ 0 := fun z => hn (BitVec.eq_of_toNat_eq z)
  rw [decryptByte, decryptSteps_eq_foldr, undoSteps,
    foldr_range_of_idle (m := undoCount key) (by unfold undoCount; omega)]
  case idle =>
    intro t hm ht v
    exact h.refill.step_of_le (by unfold undoCount at hm; omega) v
  congr 1
  refine List.foldr_ext _ _ _ fun t ht v => h.step_of_lt ?_ v
  have := List.mem_range.mp ht
  unfold undoCount at this; omega

end Refill

/-- One plaintext byte: the index has moved by 2 * NKEY[0] for each byte before it, the carry byte holds the plaintext
before it (R208, R209). -/
theorem decryptFrom_getElem? {key : Vector Byte 268} (hn : key[0] ≠ 0#8) (l : List Byte) :
    ∀ (b : Scratch) (acc : Byte) (i : Nat) (c : Byte), b.Valid key → l[i]? = some c →
      (decryptFrom key b acc l)[i]?
        = some (undoSteps key (b.idx + BitVec.ofNat 8 (2 * (key[0]).toNat * i)) c
            ^^^ ((decryptFrom key b acc l).take i).foldl (· ^^^ ·) acc) := by
  induction l with
  | nil => intro b acc i c _ hc; simp at hc
  | cons d l ih =>
    intro b acc i c h hc
    rw [decryptFrom]
    cases i with
    | zero =>
      obtain rfl : d = c := by simpa using hc
      simp [h.decryptByte_eq hn]
    | succ i =>
      have advance : 2 * (key[0]).toNat + 2 * (key[0]).toNat * i = 2 * (key[0]).toNat * (i + 1) := by
        rw [Nat.mul_succ, Nat.add_comm]
      rw [List.getElem?_cons_succ, ih _ _ i c h.refill (by simpa using hc), refill_idx, BitVec.add_assoc,
        ← BitVec.ofNat_add, advance, List.take_succ_cons, List.foldl_cons]

/-- Settles O37: the steps undone for byte i, from the index the bytes before it left. -/
theorem plaintextByteClosedForm : Obligations.PlaintextByteClosedForm := by
  intro key cipher i c hn _ hc
  rw [decryptBytes, decryptFrom_getElem? hn cipher _ _ i c (scratchStart_valid key) hc]
  simp only [undoSteps, undoCount, undoStep, scratchStart, cursor_eq]

/-! ### decryption inverts encryption -/

theorem ne_zero_of_aligned {key : Vector Byte 268} (aligned : (key[4]).toNat + 1 = (key[0]).toNat) : key[0] ≠ 0#8 :=
  fun zero => by simp [zero] at aligned

/-- R210: with NKEY[4] = NKEY[0] - 1 every step of a byte is undone. -/
theorem undoSteps_encryptSteps {key : Vector Byte 268} (aligned : (key[4]).toNat + 1 = (key[0]).toNat) (cur v : Byte) :
    undoSteps key cur (encryptSteps key (key[0]).toNat cur v).1 = v := by
  have all : undoCount key = (key[0]).toNat := by unfold undoCount; omega
  rw [undoSteps, encryptSteps_fst, all]
  exact foldr_foldl_cancel (fun t v => undoStep_encryptStep key (cur + BitVec.ofNat 8 (2 * t)) v) _ v

/-- R210 from any cursor and carry byte on: both sides advance the cursor alike and carry the same payload bytes. -/
theorem decryptFrom_encryptFrom {key : Vector Byte 268} (aligned : (key[4]).toNat + 1 = (key[0]).toNat)
    (l : List Byte) :
    ∀ (b : Scratch) (acc : Byte), b.Valid key → decryptFrom key b acc (encryptFrom key acc b.idx l) = l := by
  induction l with
  | nil => intros; rfl
  | cons p l ih =>
    intro b acc h
    have first : decryptByte key (refill key (key[0]).toNat 0 b) acc
        (encryptSteps key (key[0]).toNat b.idx (acc ^^^ p)).1 = p := by
      rw [h.decryptByte_eq (ne_zero_of_aligned aligned), undoSteps_encryptSteps aligned, xor_xor_cancel]
    rw [encryptFrom, decryptFrom, first, encryptSteps_snd, ← refill_idx key _ 0 b, ih _ _ h.refill]

theorem decryptBytes_encryptBytes {key : Vector Byte 268} (aligned : (key[4]).toNat + 1 = (key[0]).toNat)
    (payload : List Byte) : decryptBytes key (encryptBytes key payload) = payload :=
  decryptFrom_encryptFrom aligned payload _ _ (scratchStart_valid key)

/-- Settles O39: the frame NPC.ENC leaves is well formed, and its payload decrypts to the one it was given. -/
theorem decInvertsEnc : Obligations.DecInvertsEnc := by
  intro s key stored aligned fits
  have hn := ne_zero_of_aligned aligned
  have inRange : (key[4]).toNat < scratchSize key := by
    have := le_scratchSize key
    omega
  have enc := cmdNpcEnc_of_fits stored hn fits
  refine ⟨cmdNpcEnc s, _, exec_eq_runWith .npcEnc s, by rw [enc]; rfl, exec_eq_runWith .npcDec _, ?_⟩
  have dec := cmdNpcDec_of_wellFormed (s := { cmdNpcEnc s with din := (cmdNpcEnc s).dout }) (key := key)
    (cipher := encryptBytes key s.din) (trailing := []) (by rw [enc]; exact stored) hn inRange
    (by rw [enc, List.append_nil]; rfl) (by rw [encryptBytes_length]; exact be16_split (by omega))
  rw [runWith, dec, encryptBytes_length, decryptBytes_encryptBytes aligned, seqNumber_setWidth]
  exact ⟨rfl, rfl, rfl, rfl⟩

end Sys2Proof.Machine

/-! ## The system family: SYS.NOP and SYS.CLRERR -/

namespace Sys2Proof.Machine

open Sys2Proof

/-- The common effects of a launch are all that a success with no output and no result has (R92, R230). -/
theorem succeed_empty (s : State) : s.succeed { out := [] } = { s with err := .ok, dout := [], din := [] } := rfl

/-- The mask of bits 31:16, field by field of STATUS (R42): the valid bits stay, the sticky bits and ERR are cut off. -/
theorem fields_and_validMask (cvalid : Byte) (zeros : BitVec 7) (nkvalid : BitVec 1) (sticky err : Byte) :
    (cvalid ++ zeros ++ nkvalid ++ sticky ++ err)
        &&& (BitVec.allOnes 8 ++ BitVec.allOnes 7 ++ BitVec.allOnes 1 ++ 0#8 ++ 0#8)
      = cvalid ++ zeros ++ nkvalid ++ 0#8 ++ 0#8 := by
  simp only [BitVec.and_append, BitVec.and_allOnes, BitVec.and_zero]

theorem State.status_and_validMask (s : State) :
    s.status &&& 0xFFFF0000#32 = s.cvalidByte ++ 0#7 ++ BitVec.ofBool s.nkvalid ++ 0#8 ++ 0#8 :=
  fields_and_validMask s.cvalidByte 0#7 (BitVec.ofBool s.nkvalid) s.stickyByte s.err.code

theorem State.clearSticky_stickyByte (s : State) : s.clearSticky.stickyByte = 0#8 := by
  simp only [State.stickyByte, State.clearSticky_sNinit, State.clearSticky_sIll, State.clearSticky_sBnd,
    State.clearSticky_sCfg, State.clearSticky_ovf]
  decide

/-- SYS.CLRERR leaves the valid bits of STATUS, with STATUS[15:8] and ERR zero (R231). -/
theorem cmdSysClrerr_status (s : State) :
    (cmdSysClrerr s).status = s.cvalidByte ++ 0#7 ++ BitVec.ofBool s.nkvalid ++ 0#8 ++ 0#8 :=
  congrArg (fun sticky => s.cvalidByte ++ 0#7 ++ BitVec.ofBool s.nkvalid ++ sticky ++ 0#8) s.clearSticky_stickyByte

/-- Settles O10: SYS.NOP is a success with no output and no result. -/
theorem nopHasOnlyTheCommonEffects : Obligations.NopHasOnlyTheCommonEffects :=
  fun s => (exec_eq_runWith .sysNop s).trans (congrArg _ (succeed_empty s))

/-- Settles O11: the STATUS that SYS.CLRERR leaves and the masked old one have the same valid bits, and zeros below them. -/
theorem clrerrClearsTheStickyBits : Obligations.ClrerrClearsTheStickyBits := fun s =>
  ⟨cmdSysClrerr s, exec_eq_runWith .sysClrerr s, (cmdSysClrerr_status s).trans s.status_and_validMask.symm,
    succeed_empty s.clearSticky⟩

end Sys2Proof.Machine

/-! ## The exceptions family: which error a command reports, and all that a failed command changes -/

namespace Sys2Proof.Machine

open Sys2Proof

/-! ### the first error that applies (R248) -/

theorem npcEncOutcome_of_absent {s : State} (absent : s.nkey = none) : npcEncOutcome s = .notInitialised := by
  rw [npcEncOutcome, absent]

theorem npcEncOutcome_of_stored {s : State} {key : Vector Byte 268} (stored : s.nkey = some key) :
    npcEncOutcome s = if key[0] = 0#8 then .configuration else if 65534 < s.din.length then .bounds else .ok := by
  simp only [npcEncOutcome, stored, BitVec.toNat_eq, BitVec.toNat_ofNat, Nat.zero_mod]

theorem npcDecOutcome_of_absent {s : State} (absent : s.nkey = none) : npcDecOutcome s = .notInitialised := by
  rw [npcDecOutcome, absent]

/-- The checks of NPC.DEC in the terms of its own definition: the marker, the frame's lengths in one check, the key. -/
theorem npcDecOutcome_of_stored {s : State} {key : Vector Byte 268} (stored : s.nkey = some key) :
    npcDecOutcome s =
      if s.din.head? ≠ some 0xAA#8 then .formatMismatch
      else if s.din.length < 5 ∨ be16 (byteAt s.din 1) (byteAt s.din 2) = 0 ∨
        s.din.length + 1 < 5 + be16 (byteAt s.din 1) (byteAt s.din 2) then .bounds
      else if key[0] = 0#8 then .configuration
      else if scratchSize key ≤ (key[4]).toNat then .bounds
      else .ok := by
  simp only [npcDecOutcome, stored, scratchSize_eq, be16, ite_or, BitVec.toNat_eq, BitVec.toNat_ofNat, Nat.zero_mod]

theorem cmdNpcEnc_err (s : State) : (cmdNpcEnc s).err = npcEncOutcome s := by
  rcases cmdNpcEnc_cases s with ⟨absent, e⟩ | ⟨key, stored, e⟩
  · rw [e, npcEncOutcome_of_absent absent, State.raiseError_err]
  · rw [e, npcEncOutcome_of_stored stored]
    rcases encryptPacket_cases key s.seqNumber s.din with ⟨zero, q⟩ | ⟨hn, long, q⟩ | ⟨hn, fits, q⟩
    · simp [q, zero]
    · simp [q, hn, long]
    · simp [q, hn, Nat.not_lt.mpr fits]

theorem decryptPacket_of_parse_error {key : Vector Byte 268} {fr : List Byte} {e : ErrCode}
    (parsed : parseFrame fr = .error e) : decryptPacket key fr = .error e := by
  rw [decryptPacket, parsed]

theorem cmdNpcDec_err (s : State) : (cmdNpcDec s).err = npcDecOutcome s := by
  rcases cmdNpcDec_cases s with ⟨absent, e⟩ | ⟨key, stored, e⟩
  · rw [e, npcDecOutcome_of_absent absent, State.raiseError_err]
  rw [e, npcDecOutcome_of_stored stored]
  rcases parseFrame_cases s.din with
    ⟨marker, parsed⟩ | ⟨marker, short, parsed⟩ | ⟨marker, header, nonzero, fits, parsed⟩
  · simp [decryptPacket_of_parse_error parsed, marker]
  · simp [decryptPacket_of_parse_error parsed, marker, short]
  · have whole : ¬(s.din.length < 5 ∨ be16 (byteAt s.din 1) (byteAt s.din 2) = 0 ∨
        s.din.length + 1 < 5 + be16 (byteAt s.din 1) (byteAt s.din 2)) := by omega
    rw [if_neg (not_not.mpr marker), if_neg whole]
    rcases decryptPacket_cases key s.din with
      ⟨_, hx, -⟩ | ⟨_, -, zero, q⟩ | ⟨_, -, hn, beyond, q⟩ | ⟨_, -, hn, inRange, q⟩
    · cases parsed.symm.trans hx
    · simp [q, zero]
    · simp [q, hn, beyond]
    · simp [q, hn, Nat.not_le.mpr inRange]

/-- ERR after a command is its outcome in the order of R248, whatever the hardware's parameters. -/
theorem runWith_err (p : Config.Params) (i : Instr) (s : State) : (runWith p i s).err = expectedOutcome p i s := by
  cases i with
  | sysNop | sysClrerr | akdCsum => rfl
  | akdHkey =>
    rcases cmdAkdHkey_cases s with ⟨h, e⟩ | ⟨h, e⟩ <;> simp [runWith, expectedOutcome, e, h]
  | akdCkey =>
    rcases cmdAkdCkey_cases s with ⟨h, e⟩ | ⟨h, e⟩ <;> simp [runWith, expectedOutcome, e, h]
  | aceInit c =>
    rcases cmdAceInit_cases p c s with ⟨hc, e⟩ | ⟨hc, hkey, e⟩ | ⟨hc, hkey, e⟩
    · simp [runWith, expectedOutcome, e, hc]
    · simp [runWith, expectedOutcome, e, Nat.not_le.mpr hc, hkey]
    · simp [runWith, expectedOutcome, e, Nat.not_le.mpr hc, hkey]
  | aceDec c =>
    rcases cmdAceDec_cases p c s with ⟨hc, e⟩ | ⟨hc, absent, e⟩ | ⟨k, hc, present, e⟩
    · simp [runWith, expectedOutcome, e, hc]
    · simp [runWith, expectedOutcome, e, Nat.not_le.mpr hc, s.valid_eq_isSome c hc, absent]
    · simp [runWith, expectedOutcome, e, Nat.not_le.mpr hc, s.valid_eq_isSome c hc, present]
  | nkdDerive =>
    rcases cmdNkdDerive_cases p s _ _ rfl rfl with ⟨hzero, e⟩ | ⟨hne, hpast, e⟩ | ⟨hne, hfits, key, -, e⟩
    · rw [runWith, expectedOutcome, e, if_pos hzero, State.raiseError_err]
    · rw [runWith, expectedOutcome, e, if_neg hne, if_pos hpast, State.raiseError_err]
    · rw [runWith, expectedOutcome, e, if_neg hne, if_neg (Nat.not_lt.mpr hfits), State.succeed_err]
  | nkdLoad =>
    rcases cmdNkdLoad_cases s with ⟨h, e⟩ | ⟨h, key, -, e⟩ <;> simp [runWith, expectedOutcome, e, h]
  | npcEnc => exact cmdNpcEnc_err s
  | npcDec => exact cmdNpcDec_err s

/-- Settles O6: ERR of the state that `exec` answers is the outcome, command by command. -/
theorem everyCommandReportsTheFirstError : Obligations.EveryCommandReportsTheFirstError :=
  fun i s => ⟨runWith Config.hw i s, exec_eq_runWith i s, runWith_err Config.hw i s⟩

/-! ### the whole effect of a failure (R246) -/

theorem runWith_of_err_ne_ok {p : Config.Params} {i : Instr} {s : State} (failed : (runWith p i s).err ≠ .ok) :
    runWith p i s = s.raiseError (runWith p i s).err := by
  rcases runWith_cases p i s with ⟨e, -, q⟩ | ⟨r, s', -, -, q⟩ <;> rw [q] at failed ⊢
  · rw [State.raiseError_err]
  · exact absurd (State.succeed_err r s') failed

theorem launchWith_of_err_ne_ok {p : Config.Params} {w : Word} {s : State} (failed : (launchWith p w s).err ≠ .ok) :
    launchWith p w s = s.beginLaunch.raiseError (launchWith p w s).err := by
  rcases launchWith_cases p w s with ⟨i, -, q⟩ | ⟨-, -, q⟩ <;> rw [q] at failed ⊢
  · exact runWith_of_err_ne_ok failed
  · rw [State.raiseError_err]

/-- Settles O7: a failure is `raiseError` on the state of the command, or on the state the launch began with. -/
theorem failedCommandChangesNothingElse : Obligations.FailedCommandChangesNothingElse := by
  refine ⟨fun i s t ran failed => ?_, fun w s t ran failed => ?_⟩
  · rw [exec_eq_runWith] at ran
    cases ran
    exact (runWith_of_err_ne_ok failed).trans (State.raiseError_eq _ s)
  · rw [launch_eq_launchWith] at ran
    cases ran
    exact (launchWith_of_err_ne_ok failed).trans (State.raiseError_eq _ s.beginLaunch)

/-! ### refusals, read off the outcome -/

/-- A command whose outcome is an error has that error's whole effect (R246, R248). -/
theorem exec_of_expectedOutcome {i : Instr} {s : State} {e : ErrCode} (outcome : expectedOutcome Config.hw i s = e)
    (he : e ≠ .ok) : exec i s = .next (s.raiseError e) := by
  have err : (runWith Config.hw i s).err = e := (runWith_err Config.hw i s).trans outcome
  rw [exec_eq_runWith, runWith_of_err_ne_ok (err ▸ he), err]

/-- Settles O27: while the valid bit is 0, NotInitialised comes before every check of the operand. -/
theorem uninitialisedUseIsRefused : Obligations.UninitialisedUseIsRefused := by
  refine ⟨fun s c hc invalid => ?_, fun s invalid => ?_⟩
  · have outcome : expectedOutcome Config.hw (.aceDec c) s = .notInitialised := by
      rw [expectedOutcome, if_neg (Nat.not_le.mpr hc), if_pos invalid]
    exact exec_of_expectedOutcome outcome (by decide)
  · have absent : s.nkey = none := by simpa [State.nkvalid] using invalid
    exact ⟨exec_of_expectedOutcome (i := .npcEnc) (npcEncOutcome_of_absent absent) (by decide),
      exec_of_expectedOutcome (i := .npcDec) (npcDecOutcome_of_absent absent) (by decide)⟩

/-- The marker is the first check of NPC.DEC on a stored key, and the only one with outcome FormatMismatch (R243). -/
theorem npcDecOutcome_eq_formatMismatch_iff (s : State) :
    npcDecOutcome s = .formatMismatch ↔ s.nkvalid = true ∧ s.din.head? ≠ some 0xAA#8 := by
  cases stored : s.nkey with
  | none => simp [npcDecOutcome_of_absent stored, State.nkvalid, stored]
  | some key =>
    rw [npcDecOutcome_of_stored stored, State.nkvalid, stored]
    by_cases marker : s.din.head? = some 0xAA#8
    · rw [if_neg (not_not.mpr marker)]
      split_ifs <;> simp [marker]
    · simp [marker]

/-- FormatMismatch is an outcome of NPC.DEC alone (R243). -/
theorem eq_npcDec_of_formatMismatch {p : Config.Params} {i : Instr} {s : State}
    (outcome : expectedOutcome p i s = .formatMismatch) : i = .npcDec := by
  cases i with
  | npcDec => rfl
  | sysNop | sysClrerr | akdCsum => cases outcome
  | akdHkey | akdCkey | aceInit _ | aceDec _ | nkdDerive | nkdLoad =>
    rw [expectedOutcome] at outcome
    split_ifs at outcome
  | npcEnc =>
    rw [expectedOutcome] at outcome
    cases stored : s.nkey with
    | none => cases (npcEncOutcome_of_absent stored).symm.trans outcome
    | some key =>
      rw [npcEncOutcome_of_stored stored] at outcome
      split_ifs at outcome

/-- Settles O38: the marker decides FormatMismatch in NPC.DEC, and no other command has that outcome. -/
theorem missingMarkerIsNotAPacket : Obligations.MissingMarkerIsNotAPacket := by
  refine ⟨fun s valid marker => ?_, fun i s t ran failed => ?_⟩
  · have outcome := (npcDecOutcome_eq_formatMismatch_iff s).mpr ⟨valid, marker⟩
    exact exec_of_expectedOutcome (i := .npcDec) outcome (by decide)
  · rw [exec_eq_runWith] at ran
    cases ran
    rw [runWith_err] at failed
    obtain rfl := eq_npcDec_of_formatMismatch failed
    exact ⟨rfl, (npcDecOutcome_eq_formatMismatch_iff s).mp failed⟩

end Sys2Proof.Machine
